-- ==== Sys2Proof/Word.lean ====
section
/-! DEFINITION. The values SPNCORE computes with (00_scope.md R6, R8, R9), each a bit vector of the width the spec
gives it, and the round index of 44_block_cipher.md R124. -/

namespace Sys2Proof

/-- A 40-bit Block: the message, the cipher state and the ciphertext (R6 BLOCK_W). -/
abbrev Block := BitVec 40

/-- A 56-bit Key (R6 KEY_W). -/
abbrev Key := BitVec 56

/-- An 8-bit RoundKeyByte (R6 KB_W). -/
abbrev KeyByte := BitVec 8

/-- A 40-bit WhiteningMask (R6 MASK_W). -/
abbrev Mask := BitVec 40

/-- A 5-bit substitution slice (R6 SLICE_W). -/
abbrev Slice := BitVec 5

/-- What a 64-bit input port carries (R7 MSG_PORT_W and KEY_PORT_W, R28; notes/assumptions/3.md). -/
abbrev PortWord := BitVec 64

/-- The 2-bit sequencer mode `st` (10_state.md R21). -/
abbrev Mode := BitVec 2

/-- The 3-bit round counter `rnd` (10_state.md R22). -/
abbrev Rnd := BitVec 3

/-- The 5-bit phase word PH = st ++ rnd (30_encoding.md R76). -/
abbrev PhaseWord := BitVec 5

/-- The 2-bit handshake word in_valid ++ in_ready (30_encoding.md R82). -/
abbrev HandshakeWord := BitVec 2

/-- The index of a round, 1 to 6 inclusive (R124). KSEL is defined for these and for nothing else (R92), so the
index is a type of six values and not a number. -/
inductive RoundIndex where
  | r1 | r2 | r3 | r4 | r5 | r6
  deriving DecidableEq, Repr

/-- The round index as the spec's number i. -/
def RoundIndex.toNat : RoundIndex → Nat
  | .r1 => 1
  | .r2 => 2
  | .r3 => 3
  | .r4 => 4
  | .r5 => 5
  | .r6 => 6

/-- The six rounds in the order they run (R124). -/
def RoundIndex.inOrder : List RoundIndex := [.r1, .r2, .r3, .r4, .r5, .r6]

end Sys2Proof
end

