-- ==== Sys2Proof/Config.lean ====
section
/-! DEFINITION. What is fixed for one SPNCORE (00_scope.md R6, R7), what a host can drive on its input ports
(10_state.md R28), and the one free value of the model: what the host drives at an edge nobody has laid down. -/

namespace Sys2Proof

/-- The values of the input ports that one rising edge of clk samples (R28). The edge itself is the step, so clk is no
field. Each wire is 0 or 1 (70_reset_and_hazards.md R187). -/
structure Pins where
  rst      : Bool
  inValid  : Bool
  inMsg    : PortWord
  inKey    : PortWord
  outReady : Bool
  deriving DecidableEq, Repr, Inhabited

namespace Config

/-- SLICES of R6: the 5-bit slices of a state. -/
abbrev slices : Nat := 8

/-- TABLE_N of R6: the entries of the substitution table. -/
abbrev tableN : Nat := 32

/-- ROUNDS of R6: the rounds before the final whitening. -/
abbrev rounds : Nat := 6

/-- ROT of R6: the bits of the rotation that ends a round. -/
abbrev rot : Nat := 8

/-- IN_FLIGHT of R7: transactions in flight at once. -/
abbrev inFlight : Nat := 1

/-- LAT_OK of R7: edges after the accepting edge until out_valid, for an accepted block. -/
abbrev latOk : Nat := 7

/-- LAT_ERR of R7: edges after the accepting edge until out_valid, for a BadLength input. -/
abbrev latErr : Nat := 0

/-- FREE VALUE. What the host drives at the n-th edge for which State lists no row of inputs. It has no body: nothing
can be proved of it, so whatever is proved of a step holds of every host (notes/assumptions/2.md). -/
opaque freePins : Nat → Pins

end Config
end Sys2Proof
end

