-- ==== Sys2Proof/Syntax.lean ====
section
/-! DEFINITION. The instruction set: one constructor for each row of spec/opcode_table.json (30_encoding.md R77, R82).
A row's don't-care bits are the constructor's operand, so no bit of a phase word is dropped. -/

namespace Sys2Proof

/-- What one rising edge with rst = 0 performs. -/
inductive Instr where
  /-- `ENC msg, key` (R81): the input transfer, in_valid = in_ready = 1, with what in_msg and in_key carry (R129). -/
  | encrypt (msg key : PortWord)
  /-- PH = 00000: wait, or accept what the ports offer (R141, R142). -/
  | idle
  /-- PH = 01001 to 01110: round i (R143). -/
  | round1
  | round2
  | round3
  | round4
  | round5
  | round6
  /-- PH = 01111: the final whitening (R144). -/
  | final
  /-- PH = 10000: hold the result, or release it (R145). -/
  | done
  /-- The reserved phase words: RECOVER (R148). -/
  | reserved00001
  | reserved0001x (x : BitVec 1)
  | reserved001xx (x : BitVec 2)
  | reserved01000
  | reserved10001
  | reserved1001x (x : BitVec 1)
  | reserved101xx (x : BitVec 2)
  | reserved11xxx (x : BitVec 3)
  deriving DecidableEq, Repr

/-- The row's mnemonic in spec/opcode_table.json. -/
def Instr.mnemonic : Instr → String
  | .encrypt _ _ => "ENCRYPT"
  | .idle => "IDLE"
  | .round1 => "ROUND1"
  | .round2 => "ROUND2"
  | .round3 => "ROUND3"
  | .round4 => "ROUND4"
  | .round5 => "ROUND5"
  | .round6 => "ROUND6"
  | .final => "FINAL"
  | .done => "DONE"
  | .reserved00001 => "RESERVED_00001"
  | .reserved0001x _ => "RESERVED_0001x"
  | .reserved001xx _ => "RESERVED_001xx"
  | .reserved01000 => "RESERVED_01000"
  | .reserved10001 => "RESERVED_10001"
  | .reserved1001x _ => "RESERVED_1001x"
  | .reserved101xx _ => "RESERVED_101xx"
  | .reserved11xxx _ => "RESERVED_11xxx"

end Sys2Proof
end

