-- ==== Sys2Proof/Decode.lean ====
section
/-! DEFINITION. The decoder and the encoder (30_encoding.md R76, R77, R82; spec/opcode_table.json).
SPNCORE fetches nothing (R70). What it decodes at an edge is its phase word, or the input transfer that the edge is. -/

namespace Sys2Proof

/-- What the decoder reads at one edge: the two formats of spec/opcode_table.json. -/
inductive FetchWord where
  /-- Format HANDSHAKE: HS = in_valid ++ in_ready, with the two input ports beside it (R71, R72, R82). -/
  | transfer (hs : HandshakeWord) (msg key : PortWord)
  /-- Format PH: the phase word (R76). -/
  | phase (ph : PhaseWord)
  deriving DecidableEq, Repr

/-- Why a word is no instruction. -/
inductive DecodeReject where
  /-- The handshake word is not 11: no input transfer takes place. -/
  | noInputTransfer (hs : HandshakeWord)
  /-- No row of the phase map selects the phase word. R77 maps all 32, so this names no word. -/
  | unmappedPhase (ph : PhaseWord)
  deriving DecidableEq, Repr

/-- A row of format PH. It selects a phase word when `PH AND mask = pattern` (R82). -/
structure PhaseRow where
  mnemonic : String
  pattern  : PhaseWord
  mask     : PhaseWord
  instr    : PhaseWord → Instr

/-- The row selects the phase word. -/
def PhaseRow.selects (r : PhaseRow) (ph : PhaseWord) : Bool := ph &&& r.mask == r.pattern

/-- The rows of the phases that a transaction visits. -/
def liveRows : List PhaseRow :=
  [ ⟨"IDLE",   0b00000, 0b11111, fun _ => .idle⟩,
    ⟨"ROUND1", 0b01001, 0b11111, fun _ => .round1⟩,
    ⟨"ROUND2", 0b01010, 0b11111, fun _ => .round2⟩,
    ⟨"ROUND3", 0b01011, 0b11111, fun _ => .round3⟩,
    ⟨"ROUND4", 0b01100, 0b11111, fun _ => .round4⟩,
    ⟨"ROUND5", 0b01101, 0b11111, fun _ => .round5⟩,
    ⟨"ROUND6", 0b01110, 0b11111, fun _ => .round6⟩,
    ⟨"FINAL",  0b01111, 0b11111, fun _ => .final⟩,
    ⟨"DONE",   0b10000, 0b11111, fun _ => .done⟩ ]

/-- The rows of the reserved phase words (R78). The operand is the row's don't-care bits. -/
def reservedRows : List PhaseRow :=
  [ ⟨"RESERVED_00001", 0b00001, 0b11111, fun _ => .reserved00001⟩,
    ⟨"RESERVED_0001x", 0b00010, 0b11110, fun ph => .reserved0001x (ph.extractLsb' 0 1)⟩,
    ⟨"RESERVED_001xx", 0b00100, 0b11100, fun ph => .reserved001xx (ph.extractLsb' 0 2)⟩,
    ⟨"RESERVED_01000", 0b01000, 0b11111, fun _ => .reserved01000⟩,
    ⟨"RESERVED_10001", 0b10001, 0b11111, fun _ => .reserved10001⟩,
    ⟨"RESERVED_1001x", 0b10010, 0b11110, fun ph => .reserved1001x (ph.extractLsb' 0 1)⟩,
    ⟨"RESERVED_101xx", 0b10100, 0b11100, fun ph => .reserved101xx (ph.extractLsb' 0 2)⟩,
    ⟨"RESERVED_11xxx", 0b11000, 0b11000, fun ph => .reserved11xxx (ph.extractLsb' 0 3)⟩ ]

/-- The phase word map of R77. -/
def phaseRows : List PhaseRow := liveRows ++ reservedRows

/-- The micro-operation that a phase word selects (R77). -/
def decodePhase (ph : PhaseWord) : Except DecodeReject Instr :=
  match phaseRows.find? (·.selects ph) with
  | some r => .ok (r.instr ph)
  | none => .error (.unmappedPhase ph)

/-- The decoder, total on every word: an instruction, or the name of why there is none. -/
def decode : FetchWord → Except DecodeReject Instr
  | .transfer hs m k => if hs = 0b11#2 then .ok (.encrypt m k) else .error (.noInputTransfer hs)
  | .phase ph => decodePhase ph

/-- The encoder: the word of an instruction, bit by bit from the patterns of R77 and R82. -/
def encode : Instr → FetchWord
  | .encrypt m k => .transfer 0b11#2 m k
  | .idle => .phase 0b00000#5
  | .round1 => .phase 0b01001#5
  | .round2 => .phase 0b01010#5
  | .round3 => .phase 0b01011#5
  | .round4 => .phase 0b01100#5
  | .round5 => .phase 0b01101#5
  | .round6 => .phase 0b01110#5
  | .final => .phase 0b01111#5
  | .done => .phase 0b10000#5
  | .reserved00001 => .phase 0b00001#5
  | .reserved0001x x => .phase (0b0001#4 ++ x)
  | .reserved001xx x => .phase (0b001#3 ++ x)
  | .reserved01000 => .phase 0b01000#5
  | .reserved10001 => .phase 0b10001#5
  | .reserved1001x x => .phase (0b1001#4 ++ x)
  | .reserved101xx x => .phase (0b101#3 ++ x)
  | .reserved11xxx x => .phase (0b11#2 ++ x)

/-- The word that spec/opcode_table.json's numbering calls `w`, in a row of `nbits` bits. A row of 2 bits is a handshake
word and one of 5 bits a phase word. In whole bytes the two formats meet in one number, 3: it is the handshake word
11 of ENCRYPT, whose operand bits are then zero, since that row has no other word (notes/assumptions/4.md). A number with a
bit above the five of a phase word is no word of the table. -/
def tableWord (nbits w : Nat) : Option FetchWord :=
  if nbits = 2 then
    if w < 4 then some (.transfer (BitVec.ofNat 2 w) 0 0) else none
  else if nbits ≠ 5 ∧ w = 3 then some (.transfer 0b11#2 0 0)
  else if w < 32 then some (.phase (BitVec.ofNat 5 w))
  else none

/-- The instruction that the decoder reads from the table's word `w` of `nbits` bits. -/
def decodeTableWord (nbits w : Nat) : Option Instr :=
  match tableWord nbits w with
  | none => none
  | some f =>
    match decode f with
    | .ok i => some i
    | .error _ => none

end Sys2Proof
end

