-- ==== Sys2Proof/Machine/State.lean ====
section
/-! DEFINITION. The state of one SPNCORE (10_state.md R20 to R26) with the rows of input values its host will drive,
its value after reset (R32), and the reasons a step can stop. -/

namespace Sys2Proof.Machine

/-- The five registers of R20, and the environment: what the input ports carry at the edges to come. TABLE is a
constant (R27), so it is no field. -/
structure State where
  /-- The sequencer mode (R21): 00 IDLE, 01 RUN, 10 DONE, 11 reserved. -/
  st        : Mode
  /-- The round counter (R22). -/
  rnd       : Rnd
  /-- The cipher state (R24). -/
  S         : Block
  /-- The key of the transaction in flight (R25). -/
  K         : Key
  /-- The outcome of the last accepted transaction: true for BadLength (R26). -/
  err       : Bool
  /-- MODEL'S OWN. One row per coming edge, the next edge's first (R81: a program is a sequence of input values). -/
  inputs    : List Pins
  /-- MODEL'S OWN. How many free rows have been drawn after `inputs` ran out. -/
  freeDraws : Nat
  deriving DecidableEq, Repr

/-- st = 00 (R21). -/
abbrev modeIdle : Mode := 0b00

/-- st = 01 (R21). -/
abbrev modeRun : Mode := 0b01

/-- st = 10 (R21). -/
abbrev modeDone : Mode := 0b10

/-- No micro-operation stops the machine: every phase word has an effect (R77, R148), and BadLength is an ordinary
result that a next state carries (R160, R166). So there is no fault reason, and no step can answer one. -/
inductive Fault where
  deriving DecidableEq, Repr

/-- Why a step gives an instruction no meaning. -/
inductive Refusal where
  /-- Raised by exec alone, for an instruction without a meaning. SAFE. No arm of exec raises it. -/
  | notModelled (mnemonic : String)
  /-- Raised by step when the decoder rejects the word of the edge. SAFE. It never happens, since step decodes the
  handshake word only when it is 11 and R77 maps every phase word. -/
  | notAnInstruction (why : DecodeReject)
  deriving DecidableEq, Repr

/-- The machine after a reset edge (R32), with no row of inputs laid down. -/
def State.reset : State where
  st        := modeIdle
  rnd       := 0
  S         := 0
  K         := 0
  err       := false
  inputs    := []
  freeDraws := 0

end Sys2Proof.Machine
end

