-- ==== Sys2Proof/Machine/Flags.lean ====
section
/-! DEFINITION. The one status condition, BADLEN (44_block_cipher.md R121), and the output ports (45_sequencer.md R146). -/

namespace Sys2Proof.Machine

/-- BADLEN (R121): the message needs more than 5 bytes or the key more than 7. -/
def badlen (m k : PortWord) : Bool := decide (m.toNat ≥ 2 ^ 40) || decide (k.toNat ≥ 2 ^ 56)

/-- in_ready (R146). -/
def State.inReady (s : State) : Bool := s.st == modeIdle

/-- out_valid (R146). -/
def State.outValid (s : State) : Bool := s.st == modeDone

/-- out_ct (R146). Outside DONE it shows S and carries no meaning (93_implementation_defined.md I2). -/
def State.outCt (s : State) : Block := s.S

/-- out_err (R146). Outside DONE it shows err and carries no meaning (93_implementation_defined.md I2). -/
def State.outErr (s : State) : Bool := s.err

end Sys2Proof.Machine
end

