-- ==== Sys2Proof/Machine/Operands.lean ====
section
/-! DEFINITION. Operand assembly (30_encoding.md R74): the port fields, the round-key byte selectors, the whitening
mask, the slices, and the substitution table they index. -/

namespace Sys2Proof.Machine

/-- MSG = in_msg[39:0] (R71, R123). -/
def msgBlock (m : PortWord) : Block := m.extractLsb' 0 40

/-- The key field in_key[55:0] (R72, R123). -/
def keyField (k : PortWord) : Key := k.extractLsb' 0 56

/-- KEYEXP (41_key_expander.md R90): byte 4 down to byte 0. -/
def keyexp (kb : KeyByte) : Mask := kb ++ ~~~kb ++ kb ++ ~~~kb ++ kb

/-- KSEL (R92): key byte 7 - i. -/
def ksel (key : Key) (i : RoundIndex) : KeyByte := key.extractLsb' (8 * (7 - i.toNat)) 8

/-- KFIN (R93): key byte 0. -/
def kfin (key : Key) : KeyByte := key.extractLsb' 0 8

/-- SLICE (42_substitution_box.md R101): s[5j+4:5j]. -/
def slice (s : Block) (j : Fin 8) : Slice := s.extractLsb' (5 * j.val) 5

/-- The slice numbers, most significant first: the order in which R102 takes them. -/
def sliceOrder : List (Fin 8) := [7, 6, 5, 4, 3, 2, 1, 0]

/-- The contents of the substitution ROM, in index order (R100). -/
def tableRom : Vector Slice 32 :=
  #v[22,  0, 19,  9, 15,  3, 21, 18,  4, 26, 28, 13, 27,  5, 25, 31,
     29, 12, 24,  6, 23,  8,  2, 11, 16, 30, 14, 10, 20,  7, 17,  1]

/-- TABLE[v] (R27, R51): every 5-bit index is in range. -/
def table (v : Slice) : Slice := tableRom.get v.toFin

end Sys2Proof.Machine
end

