-- ==== Sys2Proof/Machine/Ops.lean ====
section
/-! DEFINITION. The datapath units (42_substitution_box.md, 43_round_function.md), what an edge samples and decodes,
and the register writes that the micro-operations share (45_sequencer.md, 60_exceptions.md, 70_reset_and_hazards.md). -/

namespace Sys2Proof.Machine

/-! ### Datapath units -/

/-- SBOX (R102): the slices from the most significant down, each replaced by its table entry. -/
def sbox (s : Block) : Block :=
  sliceOrder.foldl (fun r j => (r <<< 5) ||| (table (slice s j)).setWidth 40) 0

/-- WHITEN (R110). -/
def whiten (s : Block) (kb : KeyByte) : Block := s ^^^ keyexp kb

/-- ROTR8 (R111): byte 0 becomes byte 4. -/
def rotr8 (s : Block) : Block := (s >>> 8) ||| ((s &&& 0xFF) <<< 32)

/-- ROUND (R113): whiten, then substitute, then rotate. -/
def roundFn (s : Block) (kb : KeyByte) : Block := rotr8 (sbox (whiten s kb))

/-! ### What an edge samples and decodes -/

/-- The values on the input ports at the next edge: the first row laid down, or a free one (notes/assumptions/2.md). -/
def State.pins (s : State) : Pins :=
  match s.inputs with
  | p :: _ => p
  | [] => Config.freePins s.freeDraws

/-- The edge has taken its row of inputs. -/
def State.tick (s : State) : State :=
  match s.inputs with
  | _ :: ps => { s with inputs := ps }
  | [] => { s with freeDraws := s.freeDraws + 1 }

/-- PH = st ++ rnd (R76). -/
def State.ph (s : State) : PhaseWord := s.st ++ s.rnd

/-- HS = in_valid ++ in_ready (R82). -/
def State.hs (s : State) : HandshakeWord := BitVec.ofBool s.pins.inValid ++ BitVec.ofBool s.inReady

/-- What the decoder reads at an edge with rst = 0. PH alone selects the micro-operation (R76). In PH = 00000 an input
transfer is that of ENCRYPT (R142). In a reserved phase word with st = 00 the transfer does not happen (R148), although
in_ready is 1 there (notes/assumptions/5.md). -/
def State.fetch (s : State) : FetchWord :=
  if s.ph = 0b00000#5 ∧ s.hs = 0b11#2 then .transfer s.hs s.pins.inMsg s.pins.inKey else .phase s.ph

/-! ### Register writes -/

/-- Writes the phase word. -/
def State.setPhase (st : Mode) (rnd : Rnd) (s : State) : State := { s with st := st, rnd := rnd }

/-- Writes the cipher state register. -/
def State.setS (v : Block) (s : State) : State := { s with S := v }

/-- Writes what an input transfer writes: S, K and err together (R142). -/
def State.setTransaction (v : Block) (key : Key) (err : Bool) (s : State) : State :=
  { s with S := v, K := key, err := err }

/-- Taking the one exception, BadLength (R163): nothing of the rejected input is kept, and the result is presented. -/
def State.takeBadLength (s : State) : State := (s.setTransaction 0 0 true).setPhase modeDone 0

/-- The return from BadLength and from every result: the output transfer (R145 RELEASE, R164). -/
def State.release (s : State) : State := s.setPhase modeIdle 0

/-- ACCEPT (R142): the input transfer of message m and key k. -/
def State.accept (m k : PortWord) (s : State) : State :=
  if badlen m k then s.takeBadLength
  else (s.setTransaction (msgBlock m) (keyField k) false).setPhase modeRun 1

/-- ROUNDi (R143). st is not written. -/
def State.roundEdge (i : RoundIndex) (s : State) : State :=
  (s.setS (roundFn s.S (ksel s.K i))).setPhase s.st (s.rnd + 1)

/-- FINAL (R144). err is not written. -/
def State.finalEdge (s : State) : State := (s.setS (whiten s.S (kfin s.K))).setPhase modeDone 0

/-- RECOVER (R148): a reserved phase word returns to IDLE, and S, K and err keep their values. -/
def State.recover (s : State) : State := s.setPhase modeIdle 0

/-- RESET (R180): every register takes its reset value (R32). The rows of inputs are the host's and stay. -/
def State.resetEdge (s : State) : State :=
  { State.reset with inputs := s.inputs, freeDraws := s.freeDraws }

/-- What step adds around an instruction: the edge has taken its row of inputs. -/
def afterEdge : Host.Outcome State Fault Refusal → Host.Outcome State Fault Refusal
  | .next t => .next t.tick
  | .fault r => .fault r
  | .refused r => .refused r

/-! ### Placing a word for the decoder -/

/-- A row in which the host drives every input to 0. -/
def quietPins : Pins := { rst := false, inValid := false, inMsg := 0, inKey := 0, outReady := false }

/-- Lays down the row of the next edge, in the place of the row that stood there. -/
def State.drive (p : Pins) (s : State) : State := { s with inputs := p :: s.inputs.tail }

/-- The row laid down for the next edge, or a quiet one. -/
def State.laidDown (s : State) : Pins := s.inputs.headD quietPins

/-- Makes `f` what the next edge decodes. An input transfer is offered on the ports while PH = 00000. A phase word is
put into st and rnd, with in_valid low in PH = 00000 so that the edge is no transfer. rst is low in both. -/
def State.place (f : FetchWord) (s : State) : State :=
  match f with
  | .transfer hs m k =>
    (s.setPhase modeIdle 0).drive
      { s.laidDown with rst := false, inValid := hs.getLsbD 1, inMsg := m, inKey := k }
  | .phase ph =>
    (s.setPhase (ph.extractLsb' 3 2) (ph.extractLsb' 0 3)).drive
      { s.laidDown with rst := false, inValid := s.laidDown.inValid && ph != 0 }

end Sys2Proof.Machine
end

