-- ==== Sys2Proof/Machine/Handshake.lean ====
section
/-! DEFINITION. The micro-operations that meet the host: ENCRYPT, IDLE and DONE (45_sequencer.md R141, R142, R145). -/

namespace Sys2Proof.Machine

/-- ENCRYPT at the cycle level: the input transfer, its first micro-operation (R129, R142). The phases ROUND1 to DONE
carry the transaction on, one edge each (R147). -/
def execEncrypt (m k : PortWord) (s : State) : Host.Outcome State Fault Refusal := .next (s.accept m k)

/-- IDLE (R141): wait. With in_valid = 1 the edge is an input transfer, since in_ready = 1 (R142). -/
def execIdle (s : State) : Host.Outcome State Fault Refusal :=
  .next (if s.pins.inValid then s.accept s.pins.inMsg s.pins.inKey else s)

/-- DONE (R145): hold the result, or release it when the host is ready. A host that is never ready leaves the machine
here for ever (93_implementation_defined.md I9). -/
def execDone (s : State) : Host.Outcome State Fault Refusal :=
  .next (if s.pins.outReady then s.release else s)

end Sys2Proof.Machine
end

