-- ==== Sys2Proof/Machine/Reserved.lean ====
section
/-! DEFINITION. The reserved phase words (30_encoding.md R78): each is RECOVER (45_sequencer.md R148), whatever its
don't-care bits. -/

namespace Sys2Proof.Machine

/-- PH = 00001 (R148). -/
def execReserved00001 (s : State) : Host.Outcome State Fault Refusal := .next s.recover

/-- PH = 0001x (R148). -/
def execReserved0001x (_x : BitVec 1) (s : State) : Host.Outcome State Fault Refusal := .next s.recover

/-- PH = 001xx (R148). -/
def execReserved001xx (_x : BitVec 2) (s : State) : Host.Outcome State Fault Refusal := .next s.recover

/-- PH = 01000 (R148). -/
def execReserved01000 (s : State) : Host.Outcome State Fault Refusal := .next s.recover

/-- PH = 10001 (R148). -/
def execReserved10001 (s : State) : Host.Outcome State Fault Refusal := .next s.recover

/-- PH = 1001x (R148). -/
def execReserved1001x (_x : BitVec 1) (s : State) : Host.Outcome State Fault Refusal := .next s.recover

/-- PH = 101xx (R148). -/
def execReserved101xx (_x : BitVec 2) (s : State) : Host.Outcome State Fault Refusal := .next s.recover

/-- PH = 11xxx (R148). -/
def execReserved11xxx (_x : BitVec 3) (s : State) : Host.Outcome State Fault Refusal := .next s.recover

end Sys2Proof.Machine
end

