-- ==== Sys2Proof/Machine/Rounds.lean ====
section
/-! DEFINITION. The micro-operations of the RUN phases: ROUND1 to ROUND6 (45_sequencer.md R143) and FINAL (R144). -/

namespace Sys2Proof.Machine

/-- ROUND1 (R143), key byte 6. -/
def execRound1 (s : State) : Host.Outcome State Fault Refusal := .next (s.roundEdge .r1)

/-- ROUND2 (R143), key byte 5. -/
def execRound2 (s : State) : Host.Outcome State Fault Refusal := .next (s.roundEdge .r2)

/-- ROUND3 (R143), key byte 4. -/
def execRound3 (s : State) : Host.Outcome State Fault Refusal := .next (s.roundEdge .r3)

/-- ROUND4 (R143), key byte 3. -/
def execRound4 (s : State) : Host.Outcome State Fault Refusal := .next (s.roundEdge .r4)

/-- ROUND5 (R143), key byte 2. -/
def execRound5 (s : State) : Host.Outcome State Fault Refusal := .next (s.roundEdge .r5)

/-- ROUND6 (R143), key byte 1. -/
def execRound6 (s : State) : Host.Outcome State Fault Refusal := .next (s.roundEdge .r6)

/-- FINAL (R144), key byte 0. -/
def execFinal (s : State) : Host.Outcome State Fault Refusal := .next s.finalEdge

end Sys2Proof.Machine
end

