-- ==== Sys2Proof/Machine/Dispatch.lean ====
section
/-! DEFINITION. The meaning of every instruction, one arm each. -/

namespace Sys2Proof.Machine

def exec (i : Instr) (s : State) : Host.Outcome State Fault Refusal :=
  match i with
  | .encrypt m k => Sys2Proof.Machine.execEncrypt m k s
  | .idle => Sys2Proof.Machine.execIdle s
  | .round1 => Sys2Proof.Machine.execRound1 s
  | .round2 => Sys2Proof.Machine.execRound2 s
  | .round3 => Sys2Proof.Machine.execRound3 s
  | .round4 => Sys2Proof.Machine.execRound4 s
  | .round5 => Sys2Proof.Machine.execRound5 s
  | .round6 => Sys2Proof.Machine.execRound6 s
  | .final => Sys2Proof.Machine.execFinal s
  | .done => Sys2Proof.Machine.execDone s
  | .reserved00001 => Sys2Proof.Machine.execReserved00001 s
  | .reserved0001x x => Sys2Proof.Machine.execReserved0001x x s
  | .reserved001xx x => Sys2Proof.Machine.execReserved001xx x s
  | .reserved01000 => Sys2Proof.Machine.execReserved01000 s
  | .reserved10001 => Sys2Proof.Machine.execReserved10001 s
  | .reserved1001x x => Sys2Proof.Machine.execReserved1001x x s
  | .reserved101xx x => Sys2Proof.Machine.execReserved101xx x s
  | .reserved11xxx x => Sys2Proof.Machine.execReserved11xxx x s

end Sys2Proof.Machine
end

