-- ==== Sys2Proof/Machine/Step.lean ====
section
/-! DEFINITION. One step is one rising edge of clk (45_sequencer.md R140). -/

namespace Sys2Proof.Machine

/-- STEP (R140). Reset has priority over every micro-operation (R180). Otherwise the edge performs what it decodes.
Each edge takes one row of inputs. -/
def step (s : State) : Host.Outcome State Fault Refusal :=
  if s.pins.rst then afterEdge (.next s.resetEdge)
  else
    match decode s.fetch with
    | .ok i => afterEdge (exec i s)
    | .error why => .refused (.notAnInstruction why)

/-- Makes the table's word `w` what the next edge decodes, so that the next step runs exactly it. A number that is no
word of the table changes nothing. -/
def State.withFetchWord (s : State) (nbits w : Nat) : State :=
  match tableWord nbits w with
  | some f => s.place f
  | none => s

end Sys2Proof.Machine
end

