-- ==== Sys2Proof/Machine/Transaction.lean ====
section
/-! DEFINITION. The transaction level (44_block_cipher.md R120 to R132): ENCRYPT as the pure function of one message
and one key. The cycle level computes it edge by edge (R131). -/

namespace Sys2Proof.Machine

/-- The outcome of one transaction (R129). -/
inductive Result where
  | ok (ct : Block)
  | badLength
  deriving DecidableEq, Repr

/-- The state after the first n rounds, S_n of R124. -/
def stateAfter (n : Nat) (m : Block) (key : Key) : Block :=
  (RoundIndex.inOrder.take n).foldl (fun s i => roundFn s (ksel key i)) m

/-- The ciphertext of a block under a key: six rounds (R124) and the final whitening (R125, R126). -/
def cipher (m : Block) (key : Key) : Block := whiten (stateAfter Config.rounds m key) (kfin key)

/-- ENCRYPT (R129). A rejected input runs no round (R130). -/
def encrypt (m k : PortWord) : Result :=
  if badlen m k then .badLength else .ok (cipher (msgBlock m) (keyField k))

/-- What the output transfer of a result carries: out_ct and out_err (30_encoding.md R73, R131). -/
def Result.onPorts : Result → Block × Bool
  | .ok ct => (ct, false)
  | .badLength => (0, true)

end Sys2Proof.Machine
end

