-- ==== Sys2Proof/Safety.lean ====
section
/-! DEFINITION. The terms that claims about runs use: legal phases and the invariant of 45_sequencer.md R149, runs of
several edges, what a host can see (R146), and the transfers of a run with the order R59 and R131 give them. -/

namespace Sys2Proof.Machine

/-! ### States -/

/-- PH is one of 00000, 01001 to 01111, or 10000 (R149 a). -/
def legalPhase (ph : PhaseWord) : Bool :=
  ph == 0b00000 || ph == 0b01001 || ph == 0b01010 || ph == 0b01011 || ph == 0b01100 || ph == 0b01101 ||
    ph == 0b01110 || ph == 0b01111 || ph == 0b10000

/-- The invariant of R149 (a), (b) and (c). -/
structure State.Inv (s : State) : Prop where
  /-- (a) -/
  phase_legal : legalPhase s.ph = true
  /-- (b) -/
  run_no_err : s.st = modeRun → s.err = false
  /-- (c) -/
  err_cleared : s.err = true → s.S = 0 ∧ s.K = 0 ∧ (s.st = modeIdle ∨ s.st = modeDone)

/-- The five registers of R20, without the environment. -/
def State.regs (s : State) : Mode × Rnd × Block × Key × Bool := (s.st, s.rnd, s.S, s.K, s.err)

/-- What the output ports tell a host (R146): out_ct and out_err carry meaning only while out_valid = 1
(93_implementation_defined.md I2). -/
def State.visible (s : State) : Bool × Option (Block × Bool) :=
  (s.inReady, if s.outValid then some (s.outCt, s.outErr) else none)

/-! ### Runs -/

/-- n rising edges, stopping at the first fault or refusal. -/
def edges : Nat → State → Host.Outcome State Fault Refusal
  | 0, s => .next s
  | n + 1, s =>
    match step s with
    | .next t => edges n t
    | .fault r => .fault r
    | .refused r => .refused r

/-- What the host sees before each of n edges. -/
def visibleRun : Nat → State → List (Bool × Option (Block × Bool))
  | 0, _ => []
  | n + 1, s =>
    match step s with
    | .next t => s.visible :: visibleRun n t
    | .fault _ => [s.visible]
    | .refused _ => [s.visible]

/-- No row of inputs asserts rst. -/
def noReset (rows : List Pins) : Prop := ∀ p ∈ rows, p.rst = false

/-- Every row of inputs holds the output back. -/
def holdsBack (rows : List Pins) : Prop := ∀ p ∈ rows, p.rst = false ∧ p.outReady = false

/-- Edges from the accepting edge until out_valid (R7 LAT_OK and LAT_ERR, R189). -/
def latency (m k : PortWord) : Nat := if badlen m k then Config.latErr else Config.latOk

/-! ### Transfers -/

/-- What an edge can do that the host takes part in. -/
inductive Event where
  /-- A reset edge (R180). -/
  | reset
  /-- An input transfer (R142). -/
  | accepted (m k : PortWord)
  /-- An output transfer, with out_ct and out_err (R145). -/
  | released (ct : Block) (err : Bool)
  deriving DecidableEq, Repr

/-- The event of the next edge, if it has one. A transfer is an edge at which valid and ready are both 1 and the phase
is that of ACCEPT or RELEASE. -/
def State.event (s : State) : Option Event :=
  if s.pins.rst then some .reset
  else if s.ph = 0b00000#5 ∧ s.pins.inValid = true ∧ s.inReady = true then
    some (.accepted s.pins.inMsg s.pins.inKey)
  else if s.ph = 0b10000#5 ∧ s.outValid = true ∧ s.pins.outReady = true then some (.released s.outCt s.outErr)
  else none

/-- The events of n edges, in order. -/
def events : Nat → State → List Event
  | 0, _ => []
  | n + 1, s =>
    match step s with
    | .next t => s.event.toList ++ events n t
    | .fault _ => s.event.toList
    | .refused _ => s.event.toList

/-- One event at a correct server with one place (R59, R131, R181): what is in flight afterwards, or none where such a
server shows no such event. An input is accepted only when none is in flight, an output carries ENCRYPT's result for the
input in flight, and reset drops that input. -/
def serveEvent : Option (PortWord × PortWord) → Event → Option (Option (PortWord × PortWord))
  | _, .reset => some none
  | none, .accepted m k => some (some (m, k))
  | some (m, k), .released ct err => if (ct, err) = (encrypt m k).onPorts then some none else none
  | some _, .accepted _ _ => none
  | none, .released _ _ => none

/-- The events are those of a correct server that has `inFlight` in its place. -/
def served (inFlight : Option (PortWord × PortWord)) : List Event → Bool
  | [] => true
  | e :: es =>
    match serveEvent inFlight e with
    | some next => served next es
    | none => false

/-- The state is that of a machine with this input in flight, R149 (d) with the phases around it: none in IDLE; in RUN
at rnd = n + 1, S = S_n of R124 and K its key; in DONE, S and err are ENCRYPT's result. -/
inductive State.InFlight (s : State) : Option (PortWord × PortWord) → Prop
  | idle (hph : s.ph = 0b00000#5) : s.InFlight none
  | run (m k : PortWord) (n : Nat) (hn : n ≤ Config.rounds) (hfits : badlen m k = false) (hst : s.st = modeRun)
      (hrnd : s.rnd = BitVec.ofNat 3 (n + 1)) (hS : s.S = stateAfter n (msgBlock m) (keyField k))
      (hK : s.K = keyField k) (herr : s.err = false) : s.InFlight (some (m, k))
  | done (m k : PortWord) (hph : s.ph = 0b10000#5) (hout : (s.S, s.err) = (encrypt m k).onPorts) :
      s.InFlight (some (m, k))

end Sys2Proof.Machine
end

