-- ==== Sys2Proof/WellFormed.lean ====
section
/-! DEFINITION. Which instructions the spec calls legal. The only illegal encodings are an input transfer whose MSG_HI
or KEY_HI is not zero (30_encoding.md R79). Such a transfer still runs: it ends as BadLength. -/

namespace Sys2Proof

/-- MSG_HI = in_msg[63:40] is zero (R71). -/
def msgFits (m : PortWord) : Bool := m.extractLsb' 40 24 == 0

/-- KEY_HI = in_key[63:56] is zero (R72). -/
def keyFits (k : PortWord) : Bool := k.extractLsb' 56 8 == 0

/-- The instruction is one of the encodings that R79 calls legal. A reserved phase word has a defined effect (R148)
and an operand of exactly its don't-care bits, so nothing is left to check on it. -/
def Instr.wellFormed : Instr → Bool
  | .encrypt m k => msgFits m && keyFits k
  | .idle => true
  | .round1 => true
  | .round2 => true
  | .round3 => true
  | .round4 => true
  | .round5 => true
  | .round6 => true
  | .final => true
  | .done => true
  | .reserved00001 => true
  | .reserved0001x _ => true
  | .reserved001xx _ => true
  | .reserved01000 => true
  | .reserved10001 => true
  | .reserved1001x _ => true
  | .reserved101xx _ => true
  | .reserved11xxx _ => true

end Sys2Proof
end

