-- ==== Sys2Proof/Certificates/Slice0/Obligations.lean ====
section
/-! DEFINITION. The statements for the provers, each from the numbered rules of spec/. -/

open Sys2Proof Sys2Proof.Machine

/-! ### Datapath units -/

/-- R90: the mask byte by byte (source index i is byte 4 - i), its two corner values, which bytes agree, the example. -/
def Obligations.KeyExpanderAlternatesByteAndComplement : Prop :=
  (∀ (kb : KeyByte) (i : Fin 5),
    (keyexp kb).extractLsb' (8 * (4 - i.val)) 8 = if i.val % 2 = 0 then kb else kb ^^^ 0xFF#8) ∧
  keyexp 0x00 = 0x00FF00FF00#40 ∧ keyexp 0xFF = 0xFF00FF00FF#40 ∧ keyexp 0xC0 = 0xC03FC03FC0#40

/-- R91: the laws (a) to (d) of KEYEXP. -/
def Obligations.KeyExpanderLaws : Prop :=
  (∀ kb : KeyByte, keyexp kb = keyexp 0x00 ^^^ (kb ++ kb ++ kb ++ kb ++ kb)) ∧
  (∀ kb : KeyByte, keyexp (kb ^^^ 0xFF#8) = keyexp kb ^^^ 0xFFFFFFFFFF#40) ∧
  (∀ kb : KeyByte, (keyexp kb).extractLsb' 32 8 = kb) ∧
  (∀ a b : KeyByte, keyexp a = keyexp b → a = b) ∧
  (∀ a b : KeyByte,
    keyexp a ^^^ keyexp b = (a ^^^ b) ++ (a ^^^ b) ++ (a ^^^ b) ++ (a ^^^ b) ++ (a ^^^ b))

/-- R92, R93: KSEL for each round and KFIN, as the shift of the pseudocode and as the byte field, with the example. -/
def Obligations.KeyByteSelectorsReadTheirFields : Prop :=
  (∀ (key : Key) (i : RoundIndex), (ksel key i).toNat = (key.toNat >>> (8 * (7 - i.toNat))) &&& 0xFF) ∧
  (∀ key : Key, (kfin key).toNat = key.toNat &&& 0xFF) ∧
  (∀ key : Key,
    ksel key .r1 = key.extractLsb' 48 8 ∧ ksel key .r2 = key.extractLsb' 40 8 ∧
    ksel key .r3 = key.extractLsb' 32 8 ∧ ksel key .r4 = key.extractLsb' 24 8 ∧
    ksel key .r5 = key.extractLsb' 16 8 ∧ ksel key .r6 = key.extractLsb' 8 8 ∧
    kfin key = key.extractLsb' 0 8) ∧
  RoundIndex.inOrder.map (ksel 0xC0FFEE15C0FFEE) = [0xC0, 0xFF, 0xEE, 0x15, 0xC0, 0xFF] ∧
  kfin 0xC0FFEE15C0FFEE = 0xEE ∧ keyexp (kfin 0xC0FFEE15C0FFEE) = 0xEE11EE11EE

/-- R94: the seven selected bytes, in the order they are used, are the key: each key byte is used exactly once. -/
def Obligations.SelectedKeyBytesAreTheWholeKey : Prop :=
  ∀ key : Key,
    ksel key .r1 ++ ksel key .r2 ++ ksel key .r3 ++ ksel key .r4 ++ ksel key .r5 ++ ksel key .r6 ++ kfin key = key

/-- R100, R104: the contents of TABLE in index order, a permutation with no fixed point, and its inverse. -/
def Obligations.TableIsThePermutationOfTheSpec : Prop :=
  tableRom.toList =
    ([22, 0, 19, 9, 15, 3, 21, 18, 4, 26, 28, 13, 27, 5, 25, 31, 29, 12, 24, 6, 23, 8, 2, 11, 16, 30, 14, 10, 20, 7,
      17, 1] : List Slice) ∧
  (∀ v : Slice, some (table v) = tableRom.toList[v.toNat]?) ∧
  (∀ v w : Slice, table v = table w → v = w) ∧
  (∀ v : Slice, table v ≠ v) ∧
  (∀ u : Slice,
    (([1, 31, 22, 5, 8, 13, 19, 29, 21, 3, 27, 23, 17, 11, 26, 4, 24, 30, 7, 2, 28, 6, 0, 20, 18, 14, 9, 12, 10, 16,
      25, 15] : List Slice)[u.toNat]?).map table = some u)

/-- R101: SLICE as the shift of the pseudocode, the eight slices as the whole state, which of them cross a byte
boundary, and the example. -/
def Obligations.SlicesPartitionTheState : Prop :=
  (∀ (s : Block) (j : Fin 8), (slice s j).toNat = (s.toNat >>> (5 * j.val)) &&& 0x1F) ∧
  (∀ s : Block,
    slice s 7 ++ slice s 6 ++ slice s 5 ++ slice s 4 ++ slice s 3 ++ slice s 2 ++ slice s 1 ++ slice s 0 = s) ∧
  (∀ j : Fin 8, 5 * j.val / 8 ≠ (5 * j.val + 4) / 8 ↔ j = 6 ∨ j = 4 ∨ j = 3 ∨ j = 1) ∧
  sliceOrder.map (slice 0x00DEADBEEF) = [0, 3, 15, 10, 27, 15, 23, 15]

/-- R102: slice j of the result is the table entry of slice j. -/
def Obligations.SboxSubstitutesEachSlice : Prop :=
  (∀ (s : Block) (j : Fin 8), slice (sbox s) j = table (slice s j)) ∧
  sbox 0x0000000000 = 0xB5AD6B5AD6 ∧ sbox 0xFFFFFFFFFF = 0x0842108421 ∧
  sbox 0x0842108421 = 0x0000000000 ∧ sbox 0x00FF00FF00 = 0xB243D00616

/-- R103: slice j of the result depends on slice j alone, states that differ in exactly slice j give results that differ
in exactly slice j, and SBOX is a bijection. -/
def Obligations.SboxIsLocalAndBijective : Prop :=
  (∀ (s t : Block) (j : Fin 8), slice s j = slice t j → slice (sbox s) j = slice (sbox t) j) ∧
  (∀ (s t : Block) (j : Fin 8), slice s j ≠ slice t j → (∀ i, i ≠ j → slice s i = slice t i) →
    slice (sbox s) j ≠ slice (sbox t) j ∧ ∀ i, i ≠ j → slice (sbox s) i = slice (sbox t) i) ∧
  (∀ s t : Block, sbox s = sbox t → s = t) ∧
  (∀ u : Block, ∃ s, sbox s = u)

/-- R110: WHITEN is XOR with the mask, undoes itself, and differs from the state by the mask. -/
def Obligations.WhitenIsXorWithTheMask : Prop :=
  (∀ (s : Block) (kb : KeyByte), whiten s kb = s ^^^ keyexp kb) ∧
  (∀ (s : Block) (kb : KeyByte), whiten (whiten s kb) kb = s) ∧
  (∀ (s : Block) (kb : KeyByte), whiten s kb ^^^ s = keyexp kb) ∧
  whiten 0x00DEADBEEF 0xC0 = 0xC0E16D812F

/-- R111: byte 0 becomes byte 4 and byte j becomes byte j - 1, the corner values, and the example. -/
def Obligations.RotateMovesEachByteDownOne : Prop :=
  (∀ s : Block, rotr8 s = s.extractLsb' 0 8 ++ s.extractLsb' 8 32) ∧
  (∀ s : Block, (rotr8 s).extractLsb' 32 8 = s.extractLsb' 0 8) ∧
  (∀ (s : Block) (j : Fin 5), 1 ≤ j.val →
    (rotr8 s).extractLsb' (8 * (j.val - 1)) 8 = s.extractLsb' (8 * j.val) 8) ∧
  rotr8 0 = 0 ∧ rotr8 0xFFFFFFFFFF = 0xFFFFFFFFFF ∧
  (∀ b : BitVec 8, rotr8 (b ++ b ++ b ++ b ++ b) = b ++ b ++ b ++ b ++ b) ∧
  rotr8 0x0123456789 = 0x8901234567

/-- R112: five rotations give the state back and fewer do not for every state, four undo one and are the rotation left
by 8 bits, and rotation commutes with XOR. -/
def Obligations.RotateHasPeriodFive : Prop :=
  (∀ s : Block, Nat.repeat rotr8 5 s = s) ∧
  (∀ n, 0 < n → n < 5 → ∃ s : Block, Nat.repeat rotr8 n s ≠ s) ∧
  (∀ s : Block, Nat.repeat rotr8 4 (rotr8 s) = s ∧ rotr8 (Nat.repeat rotr8 4 s) = s ∧ Nat.repeat rotr8 4 s = s.rotateLeft 8) ∧
  (∀ a b : Block, rotr8 (a ^^^ b) = rotr8 a ^^^ rotr8 b)

/-- R113: the three steps in their order, the corner values, one order that differs, the example, and that ROUND is a
bijection on the state for each key byte. -/
def Obligations.RoundWhitensSubstitutesRotates : Prop :=
  (∀ (s : Block) (kb : KeyByte), roundFn s kb = rotr8 (sbox (s ^^^ keyexp kb))) ∧
  roundFn 0x0000000000 0x00 = 0x16B243D006 ∧ roundFn 0xFFFFFFFFFF 0xFF = 0x16B243D006 ∧
  whiten 0x0000000000 0x00 = 0x00FF00FF00 ∧ whiten 0xFFFFFFFFFF 0xFF = 0x00FF00FF00 ∧
  whiten (sbox 0x0000000000) 0x00 = 0xB5526BA5D6 ∧ rotr8 0xB5526BA5D6 ≠ 0x16B243D006#40 ∧
  whiten 0x00DEADBEEF 0xC0 = 0xC0E16D812F ∧ sbox 0xC0E16D812F = 0x827A255B5F ∧
  roundFn 0x00DEADBEEF 0xC0 = 0x5F827A255B ∧
  (∀ (kb : KeyByte) (s t : Block), roundFn s kb = roundFn t kb → s = t) ∧
  (∀ (kb : KeyByte) (u : Block), ∃ s, roundFn s kb = u)

/-! ### Transaction level -/

/-- R121: BADLEN as the comparison and as the port fields, with the corner cases and the example. -/
def Obligations.BadlenIsTooWideMessageOrKey : Prop :=
  (∀ m k : PortWord, badlen m k = true ↔ 2 ^ 40 ≤ m.toNat ∨ 2 ^ 56 ≤ k.toNat) ∧
  (∀ m k : PortWord, badlen m k = true ↔ m.extractLsb' 40 24 ≠ 0 ∨ k.extractLsb' 56 8 ≠ 0) ∧
  (∀ k : PortWord, k.toNat < 2 ^ 56 →
    badlen 0 k = false ∧ badlen (BitVec.ofNat 64 (2 ^ 40 - 1)) k = false ∧
    badlen (BitVec.ofNat 64 (2 ^ 40)) k = true ∧ badlen 0x1FFFFFFFFF k = false ∧ badlen 0x1FFFFFFFFFF k = true) ∧
  (∀ m : PortWord, m.toNat < 2 ^ 40 →
    badlen m (BitVec.ofNat 64 (2 ^ 56 - 1)) = false ∧ badlen m (BitVec.ofNat 64 (2 ^ 56)) = true) ∧
  badlen 0x00DEADBEEF 0xC0FFEE15C0FFEE = false

/-- R79: an ENCRYPT transfer is well formed exactly when it is not BadLength. -/
def Obligations.WellFormedTransferIsNotBadlen : Prop :=
  ∀ m k : PortWord, (Instr.encrypt m k).wellFormed = !badlen m k

/-- R123, R124, R125, R126, R130: a legal input gives six rounds under key bytes 6 to 1 and the final whitening under
key byte 0, and any other input gives BadLength. -/
def Obligations.EncryptIsSixRoundsAndFinalWhitening : Prop :=
  (∀ m k : PortWord, 2 ^ 40 ≤ m.toNat ∨ 2 ^ 56 ≤ k.toNat → encrypt m k = .badLength) ∧
  (∀ (m k : PortWord) (s0 s1 s2 s3 s4 s5 s6 : Block), m.toNat < 2 ^ 40 → k.toNat < 2 ^ 56 →
    s0.toNat = m.toNat →
    s1 = roundFn s0 ((k >>> 48).setWidth 8) → s2 = roundFn s1 ((k >>> 40).setWidth 8) →
    s3 = roundFn s2 ((k >>> 32).setWidth 8) → s4 = roundFn s3 ((k >>> 24).setWidth 8) →
    s5 = roundFn s4 ((k >>> 16).setWidth 8) → s6 = roundFn s5 ((k >>> 8).setWidth 8) →
    encrypt m k = .ok (s6 ^^^ keyexp (k.setWidth 8)))

/-- R129's example, and its corner case that message 0 under key 0 gives a ciphertext that is not 0. -/
def Obligations.EncryptDemoValue : Prop :=
  encrypt 0x00DEADBEEF 0xC0FFEE15C0FFEE = .ok 0x1215531E45 ∧ encrypt 0 0 = .ok 0xC48D21372D

/-- R132: two keys that differ only in byte 0 give ciphertexts that differ by the masks' difference, which is the bytes'
difference in all five bytes. -/
def Obligations.KeyByteZeroActsLinearly : Prop :=
  ∀ (m k k' : PortWord) (c c' : Block), k >>> 8 = k' >>> 8 → encrypt m k = .ok c → encrypt m k' = .ok c' →
    c ^^^ c' = keyexp (k.setWidth 8) ^^^ keyexp (k'.setWidth 8) ∧
    c ^^^ c' = (let d := k.setWidth 8 ^^^ k'.setWidth 8; (d ++ d ++ d ++ d ++ d : Block))

/-- From R103, R110 to R113 and R124 to R126: for each key the cipher is a permutation of the blocks. -/
def Obligations.CipherIsAPermutationForEachKey : Prop :=
  (∀ (key : Key) (a b : Block), cipher a key = cipher b key → a = b) ∧
  (∀ (key : Key) (c : Block), ∃ m, cipher m key = c)

/-! ### Encoding -/

/-- Words written out from 30_encoding.md R77 and R82, one for each kind of row. -/
def Obligations.WrittenOutWordsDecode : Prop :=
  decode (.transfer 0b11 5 7) = .ok (.encrypt 5 7) ∧
  decode (.phase 0b00000) = .ok .idle ∧ decode (.phase 0b01001) = .ok .round1 ∧
  decode (.phase 0b01110) = .ok .round6 ∧ decode (.phase 0b01111) = .ok .final ∧
  decode (.phase 0b10000) = .ok .done ∧ decode (.phase 0b11010) = .ok (.reserved11xxx 0b010)

/-- R77, R82: every phase word is selected by exactly one row of the map, and a handshake word is the input transfer
exactly when it is 11. -/
def Obligations.PhaseMapHasNoGapAndNoOverlap : Prop :=
  (∀ ph : PhaseWord, (phaseRows.filter (·.selects ph)).length = 1) ∧
  (∀ ph : PhaseWord, ∃ i, decode (.phase ph) = .ok i) ∧
  (∀ (hs : HandshakeWord) (m k : PortWord), (∃ i, decode (.transfer hs m k) = .ok i) ↔ hs = 0b11#2)

/-- Decoding and encoding are inverse: every instruction, with every operand, and every word that is an instruction. -/
def Obligations.DecodeAndEncodeAreInverse : Prop :=
  (∀ i : Instr, decode (encode i) = .ok i) ∧
  (∀ (f : FetchWord) (i : Instr), decode f = .ok i → encode i = f)

/-- The decoded instruction's mnemonic is that of a row whose fixed bits the phase word has. -/
def Obligations.DecodedPhaseMatchesItsTableRow : Prop :=
  ∀ (ph : PhaseWord) (i : Instr), decode (.phase ph) = .ok i →
    ∃ r ∈ phaseRows, r.mnemonic = i.mnemonic ∧ ph &&& r.mask = r.pattern

/-! ### Reset -/

/-- R32: the reset values and the outputs they give, for a reset edge in any state and for the state a model starts
from. -/
def Obligations.ResetGivesEveryRegisterItsValue : Prop :=
  (∀ s : State, s.pins.rst = true → ∃ t, step s = .next t ∧
    t.st = 0b00#2 ∧ t.rnd = 0b000#3 ∧ t.S = 0x0000000000#40 ∧ t.K = 0x00000000000000#56 ∧ t.err = false ∧
    t.inReady = true ∧ t.outValid = false ∧ t.outCt = 0 ∧ t.outErr = false) ∧
  State.reset.st = 0b00#2 ∧ State.reset.rnd = 0b000#3 ∧ State.reset.S = 0x0000000000#40 ∧
  State.reset.K = 0x00000000000000#56 ∧ State.reset.err = false ∧
  State.reset.inReady = true ∧ State.reset.outValid = false ∧ State.reset.outCt = 0 ∧ State.reset.outErr = false

/-- R180: reset, for one edge or many, gives the reset values whatever the phase word and the other inputs, and no
transfer takes place at a reset edge. -/
def Obligations.ResetForAnyNumberOfEdges : Prop :=
  ∀ (s : State) (rows rest : List Pins), rows ≠ [] → s.inputs = rows ++ rest → (∀ p ∈ rows, p.rst = true) →
    edges rows.length s =
      .next { st := 0, rnd := 0, S := 0, K := 0, err := false, inputs := rest, freeDraws := s.freeDraws } ∧
    events rows.length s = List.replicate rows.length .reset

/-- R182: after a reset edge the machine is ready and presents nothing, and the first edge with rst = 0 and
in_valid = 1 is an ACCEPT, after any number of waiting edges, none among them. -/
def Obligations.FirstOfferAfterResetIsAccepted : Prop :=
  (∀ s : State, s.pins.rst = true → ∃ t, step s = .next t ∧ t.inReady = true ∧ t.outValid = false) ∧
  ∀ (waits rest : List Pins) (p : Pins) (n : Nat), (∀ w ∈ waits, w.rst = false ∧ w.inValid = false) →
    p.rst = false → p.inValid = true →
    events (waits.length + 1) { State.reset with inputs := waits ++ p :: rest, freeDraws := n } =
      [.accepted p.inMsg p.inKey]

/-! ### Micro-operations: each completes, and changes only what the spec says -/

/-- R141: IDLE with in_valid = 0 writes no register, whatever in_msg and in_key are, for any number of edges, and the
machine stays ready. -/
def Obligations.IdleWaitWritesNothing : Prop :=
  (∀ s : State, s.ph = 0b00000#5 → s.pins.inValid = false → exec .idle s = .next s) ∧
  (∀ (s : State) (waits rest : List Pins), s.ph = 0b00000#5 → s.inputs = waits ++ rest →
    (∀ w ∈ waits, w.rst = false ∧ w.inValid = false) →
    edges waits.length s = .next { s with inputs := rest } ∧ events waits.length s = [] ∧ s.inReady = true)

/-- R142: the input transfer, both ways it can go, in whole: every register and nothing else. IDLE with
in_valid = 1 is the same transfer, of what the ports carry. -/
def Obligations.AcceptLoadsOrTakesBadLength : Prop :=
  (∀ (m k : PortWord) (s : State), m.toNat < 2 ^ 40 → k.toNat < 2 ^ 56 →
    exec (.encrypt m k) s =
      .next { s with S := m.setWidth 40, K := k.setWidth 56, err := false, st := 0b01#2, rnd := 1#3 }) ∧
  (∀ (m k : PortWord) (s : State), 2 ^ 40 ≤ m.toNat ∨ 2 ^ 56 ≤ k.toNat →
    exec (.encrypt m k) s = .next { s with S := 0, K := 0, err := true, st := 0b10#2, rnd := 0#3 }) ∧
  (∀ s : State, s.pins.inValid = true → exec .idle s = exec (.encrypt s.pins.inMsg s.pins.inKey) s) ∧
  (∀ s : State, exec (.encrypt 0x00000000DEADBEEF 0x00C0FFEE15C0FFEE) s =
    .next { s with S := 0x00DEADBEEF, K := 0xC0FFEE15C0FFEE, err := false, st := 0b01#2, rnd := 0b001#3 })

/-- R143: in its phase each ROUNDi runs one round under key byte 7 - i, counts rnd up, and changes nothing else. The
host cannot start a transaction meanwhile. -/
def Obligations.RoundPhasesRunOneRoundEach : Prop :=
  (∀ s : State, s.ph = 0b01001#5 →
    exec .round1 s = .next { s with S := roundFn s.S (s.K.extractLsb' 48 8), rnd := 2#3 }) ∧
  (∀ s : State, s.ph = 0b01010#5 →
    exec .round2 s = .next { s with S := roundFn s.S (s.K.extractLsb' 40 8), rnd := 3#3 }) ∧
  (∀ s : State, s.ph = 0b01011#5 →
    exec .round3 s = .next { s with S := roundFn s.S (s.K.extractLsb' 32 8), rnd := 4#3 }) ∧
  (∀ s : State, s.ph = 0b01100#5 →
    exec .round4 s = .next { s with S := roundFn s.S (s.K.extractLsb' 24 8), rnd := 5#3 }) ∧
  (∀ s : State, s.ph = 0b01101#5 →
    exec .round5 s = .next { s with S := roundFn s.S (s.K.extractLsb' 16 8), rnd := 6#3 }) ∧
  (∀ s : State, s.ph = 0b01110#5 →
    exec .round6 s = .next { s with S := roundFn s.S (s.K.extractLsb' 8 8), rnd := 7#3 }) ∧
  (∀ s : State, s.st = 0b01#2 → s.inReady = false) ∧
  (∀ s : State, s.ph = 0b01001#5 → s.S = 0x00DEADBEEF → s.K = 0xC0FFEE15C0FFEE →
    exec .round1 s = .next { s with S := 0x5F827A255B, rnd := 0b010#3 })

/-- R144: FINAL whitens under key byte 0, presents the result, and changes nothing else. err is not written, and in the
phase FINAL it is still 0, by the invariant of R149. -/
def Obligations.FinalWhitensAndPresents : Prop :=
  (∀ s : State,
    exec .final s = .next { s with S := s.S ^^^ keyexp (s.K.extractLsb' 0 8), st := 0b10#2, rnd := 0#3 }) ∧
  (∀ s : State, s.S = 0xFC04BD0FAB → s.K.extractLsb' 0 8 = 0xEE →
    exec .final s = .next { s with S := 0x1215531E45, st := 0b10#2, rnd := 0#3 }) ∧
  (∀ s : State, s.Inv → s.ph = 0b01111#5 → s.err = false ∧ ∃ t, exec .final s = .next t ∧ t.err = false)

/-- R145: DONE releases the result when the host is ready and holds everything when it is not. S, K and err keep their
values in both. in_ready is 0, so no input transfer happens at the edge. -/
def Obligations.DoneReleasesOrHolds : Prop :=
  (∀ s : State, s.pins.outReady = true → exec .done s = .next { s with st := 0b00#2, rnd := 0#3 }) ∧
  (∀ s : State, s.pins.outReady = false → exec .done s = .next s) ∧
  (∀ s : State, s.ph = 0b10000#5 → s.inReady = false ∧ s.outValid = true ∧
    (s.pins.rst = false → s.pins.outReady = true → s.event = some (.released s.S s.err)))

/-- R148: every reserved phase word, with any don't-care bits, returns to IDLE, keeps S, K and err, and hands over no
output. Two things here are the model's choice: that the reserved words RECOVER, where R78 also allows a fault
(notes/assumptions/7.md), and that no input transfer happens either in one with st = 00 and in_valid = 1, so that the
edge has no event at all (notes/assumptions/5.md). -/
def Obligations.ReservedPhasesRecover : Prop :=
  (∀ i ∈ [Instr.reserved00001, .reserved01000, .reserved10001], ∀ s : State,
    exec i s = .next { s with st := 0b00#2, rnd := 0#3 }) ∧
  (∀ (x : BitVec 1) (s : State),
    exec (.reserved0001x x) s = .next { s with st := 0b00#2, rnd := 0#3 } ∧
    exec (.reserved1001x x) s = .next { s with st := 0b00#2, rnd := 0#3 }) ∧
  (∀ (x : BitVec 2) (s : State),
    exec (.reserved001xx x) s = .next { s with st := 0b00#2, rnd := 0#3 } ∧
    exec (.reserved101xx x) s = .next { s with st := 0b00#2, rnd := 0#3 }) ∧
  (∀ (x : BitVec 3) (s : State), exec (.reserved11xxx x) s = .next { s with st := 0b00#2, rnd := 0#3 }) ∧
  (∀ s : State, legalPhase s.ph = false → s.pins.rst = false →
    s.event = none ∧ ∃ t, step s = .next t ∧ t.ph = 0b00000#5 ∧ t.S = s.S ∧ t.K = s.K ∧ t.err = s.err)

/-- R146: the four output equations, for every state, and that no output depends on an input port. -/
def Obligations.OutputsAreFunctionsOfRegisters : Prop :=
  (∀ s : State, (s.inReady = true ↔ s.st = 0b00#2) ∧ (s.outValid = true ↔ s.st = 0b10#2) ∧
    s.outCt = s.S ∧ s.outErr = s.err) ∧
  (∀ s s' : State, s.regs = s'.regs →
    s.inReady = s'.inReady ∧ s.outValid = s'.outValid ∧ s.outCt = s'.outCt ∧ s.outErr = s'.outErr)

/-! ### The step -/

/-- R140: an edge with rst = 0 runs the instruction that the decoder reads, and then has taken its row of inputs. -/
def Obligations.StepRunsTheDecodedInstruction : Prop :=
  ∀ (s : State) (i : Instr), s.pins.rst = false → decode s.fetch = .ok i → step s = afterEdge (exec i s)

/-- What the decoder reads: the phase word, or in PH = 00000 with in_valid = 1 the input transfer of the ports. Both
sides of this line are the model's choice: that an edge which meets the rows IDLE and ENCRYPT decodes to ENCRYPT
(notes/assumptions/6.md), and that a reserved phase word with st = 00 and in_valid = 1 is read as a phase word
(notes/assumptions/5.md). -/
def Obligations.FetchReadsPhaseOrTransfer : Prop :=
  (∀ s : State, s.ph = 0b00000#5 → s.pins.inValid = true →
    decode s.fetch = .ok (.encrypt s.pins.inMsg s.pins.inKey)) ∧
  (∀ s : State, ¬ (s.ph = 0b00000#5 ∧ s.pins.inValid = true) → s.fetch = .phase s.ph)

/-- R140: every edge of every state answers a next state: no fault, no refusal. -/
def Obligations.EveryEdgeAnswersANextState : Prop :=
  ∀ s : State, ∃ t, step s = .next t

/-- R140 in whole: what one edge does, by reset and by phase word, with the round counter as the index of KSEL. `u` is
the state with the edge's row of inputs taken. -/
def Obligations.StepFollowsThePhaseWordMap : Prop :=
  ∀ s : State, ∃ t, step s = .next t ∧ ∃ u, u.regs = s.regs ∧ u.inputs = s.inputs.tail ∧
    u.freeDraws = (if s.inputs = [] then s.freeDraws + 1 else s.freeDraws) ∧
    t =
      if s.pins.rst = true then { u with st := 0, rnd := 0, S := 0, K := 0, err := false }
      else if s.ph = 0b00000#5 then
        if s.pins.inValid = false then u
        else if 2 ^ 40 ≤ s.pins.inMsg.toNat ∨ 2 ^ 56 ≤ s.pins.inKey.toNat then
          { u with S := 0, K := 0, err := true, st := 0b10#2, rnd := 0 }
        else { u with S := s.pins.inMsg.setWidth 40, K := s.pins.inKey.setWidth 56, err := false, st := 0b01#2, rnd := 1 }
      else if 0b01001#5 ≤ s.ph ∧ s.ph ≤ 0b01110#5 then
        { u with S := roundFn s.S ((s.K >>> (8 * (7 - s.rnd.toNat))).setWidth 8), rnd := s.rnd + 1 }
      else if s.ph = 0b01111#5 then
        { u with S := whiten s.S (kfin s.K), st := 0b10#2, rnd := 0 }
      else if s.ph = 0b10000#5 then
        if s.pins.outReady = true then { u with st := 0b00#2, rnd := 0 } else u
      else { u with st := 0b00#2, rnd := 0 }

/-- The model's own placing of a table word (notes/assumptions/4.md): the next edge decodes and runs exactly it. -/
def Obligations.PlacedTableWordRunsNext : Prop :=
  ∀ (s : State) (nbits w : Nat) (i : Instr), decodeTableWord nbits w = some i →
    (s.withFetchWord nbits w).pins.rst = false ∧ decode (s.withFetchWord nbits w).fetch = .ok i ∧
    (s.withFetchWord nbits w).S = s.S ∧ (s.withFetchWord nbits w).K = s.K ∧
    (s.withFetchWord nbits w).err = s.err ∧ (s.withFetchWord nbits w).inputs.tail = s.inputs.tail

/-! ### Whole-machine rules -/

/-- R149 at reset: the invariant holds of the state after reset, whatever the host will drive. -/
def Obligations.InvariantHoldsAfterReset : Prop :=
  ∀ (rows : List Pins) (n : Nat), State.Inv { State.reset with inputs := rows, freeDraws := n }

/-- R149 (a), (b), (c): every edge keeps the invariant, from every state that has it. -/
def Obligations.EveryEdgeKeepsTheInvariant : Prop :=
  ∀ s t : State, s.Inv → step s = .next t → t.Inv

/-- R149 (d) at reset: after reset no input is in flight, whatever the host will drive. -/
def Obligations.NothingIsInFlightAfterReset : Prop :=
  ∀ (rows : List Pins) (n : Nat), State.InFlight { State.reset with inputs := rows, freeDraws := n } none

/-- R149 (d) with the phases around it, as a step lemma: from every state with `p` in flight, an edge without an event
keeps `p` in flight, at its next round or presented, and an edge with an event is one that a correct server with `p` in
its place shows, and leaves in flight what that server then has. What counts as an event in a reserved phase word
(notes/assumptions/5.md) does not enter: no such state has an `InFlight`. -/
def Obligations.EveryEdgeKeepsTheInputInFlight : Prop :=
  ∀ (s t : State) (p : Option (PortWord × PortWord)), s.InFlight p → step s = .next t →
    (s.event = none → t.InFlight p) ∧
    (∀ e, s.event = some e → ∃ q, serveEvent p e = some q ∧ t.InFlight q)

/-- R149: every state of every run from reset meets the invariant. -/
def Obligations.EveryReachableStateMeetsTheInvariant : Prop :=
  ∀ (rows : List Pins) (d n : Nat) (t : State),
    edges n { State.reset with inputs := rows, freeDraws := d } = .next t → t.Inv

/-- R147 as edges of a graph: from each legal phase word, an edge without reset leads to these phase words only. -/
def Obligations.PhaseWordsFollowTheFixedOrder : Prop :=
  ∀ s t : State, s.pins.rst = false → step s = .next t →
    (s.ph = 0b00000#5 → t.ph = 0b00000#5 ∨ t.ph = 0b01001#5 ∨ t.ph = 0b10000#5) ∧
    (s.ph = 0b01001#5 → t.ph = 0b01010#5) ∧ (s.ph = 0b01010#5 → t.ph = 0b01011#5) ∧
    (s.ph = 0b01011#5 → t.ph = 0b01100#5) ∧ (s.ph = 0b01100#5 → t.ph = 0b01101#5) ∧
    (s.ph = 0b01101#5 → t.ph = 0b01110#5) ∧ (s.ph = 0b01110#5 → t.ph = 0b01111#5) ∧
    (s.ph = 0b01111#5 → t.ph = 0b10000#5) ∧
    (s.ph = 0b10000#5 → t.ph = 0b00000#5 ∨ t.ph = 0b10000#5)

/-- R24, R25, R26, R160: K and err change only at an input transfer or a reset, S only there, in a round or in FINAL,
and err becomes 1 only at an input transfer that is BadLength. -/
def Obligations.RegistersHaveOnlyTheirWriters : Prop :=
  ∀ s t : State, step s = .next t →
    (t.K ≠ s.K → s.pins.rst = true ∨ (s.ph = 0b00000#5 ∧ s.pins.inValid = true)) ∧
    (t.err ≠ s.err → s.pins.rst = true ∨ (s.ph = 0b00000#5 ∧ s.pins.inValid = true)) ∧
    (t.S ≠ s.S → s.pins.rst = true ∨ (s.ph = 0b00000#5 ∧ s.pins.inValid = true) ∨
      (0b01001#5 ≤ s.ph ∧ s.ph ≤ 0b01111#5)) ∧
    (t.err = true → s.err = false →
      s.ph = 0b00000#5 ∧ s.pins.inValid = true ∧ badlen s.pins.inMsg s.pins.inKey = true)

/-- R184, R143 to R145, R148: at an edge without reset the input ports matter only where they are sampled: in_valid in
PH = 00000, in_msg and in_key at a transfer, out_ready in PH = 10000. -/
def Obligations.InputsMatterOnlyWhereSampled : Prop :=
  ∀ s s' : State, s.regs = s'.regs → s.pins.rst = false → s'.pins.rst = false →
    (s.ph = 0b00000#5 → s.pins.inValid = s'.pins.inValid ∧
      (s.pins.inValid = true → s.pins.inMsg = s'.pins.inMsg ∧ s.pins.inKey = s'.pins.inKey)) →
    (s.ph = 0b10000#5 → s.pins.outReady = s'.pins.outReady) →
    ∃ t t', step s = .next t ∧ step s' = .next t' ∧ t.regs = t'.regs

/-- R185: while the host is not ready and does not reset, a presented result stays, for any number of edges. -/
def Obligations.HeldResultStays : Prop :=
  ∀ (s : State) (rows rest : List Pins), s.ph = 0b10000#5 → s.inputs = rows ++ rest → holdsBack rows →
    edges rows.length s = .next { s with inputs := rest } ∧
    s.outValid = true ∧ s.inReady = false ∧ events rows.length s = []

/-! ### Transactions at the cycle level -/

/-- R147, R149 (d), R189: after the accepting edge t of a legal input, whatever the host drives short of reset, the
state before edge t + j + 1 is that of round j + 1 with S = S_j and the key of the transaction, and the state after
edge t + 7 presents the ciphertext. -/
def Obligations.LegalTransactionVisitsItsPhases : Prop :=
  ∀ (s : State) (p : Pins) (rows rest : List Pins), s.ph = 0b00000#5 → s.inputs = p :: (rows ++ rest) →
    p.rst = false → p.inValid = true → badlen p.inMsg p.inKey = false → noReset rows →
    (rows.length ≤ 6 → ∃ t, edges (1 + rows.length) s = .next t ∧
      t.st = 0b01#2 ∧ t.rnd = BitVec.ofNat 3 (rows.length + 1) ∧
      t.S = stateAfter rows.length (msgBlock p.inMsg) (keyField p.inKey) ∧ t.K = keyField p.inKey ∧
      t.err = false ∧ t.inputs = rest ∧ t.inReady = false ∧ t.outValid = false) ∧
    (rows.length = Config.latOk → ∃ t, edges (1 + rows.length) s = .next t ∧
      t.ph = 0b10000#5 ∧ t.outValid = true ∧ t.inReady = false ∧
      (t.outCt, t.outErr) = (encrypt p.inMsg p.inKey).onPorts ∧ t.K = keyField p.inKey ∧ t.inputs = rest)

/-- R163, R164, R162: a BadLength input is answered in the cycle after its accepting edge, with no trace of the message
or the key, and is released like any result. -/
def Obligations.BadLengthIsAnsweredAtOnce : Prop :=
  ∀ (s : State) (p q : Pins) (rest : List Pins), s.ph = 0b00000#5 → s.inputs = p :: q :: rest →
    p.rst = false → p.inValid = true → badlen p.inMsg p.inKey = true → q.rst = false → q.outReady = true →
    edges 1 s = .next { s with st := 0b10#2, rnd := 0, S := 0, K := 0, err := true, inputs := q :: rest } ∧
    edges 2 s = .next { s with st := 0b00#2, rnd := 0, S := 0, K := 0, err := true, inputs := rest } ∧
    events 2 s = [.accepted p.inMsg p.inKey, .released 0 true]

/-- R131: an accepted input whose run is not reset makes exactly one output transfer, the next one, and it carries
ENCRYPT's result, however long the host holds it back, and afterwards the machine is ready again. A reset edge before the
output transfer cancels it, and there is no output. -/
def Obligations.TransactionDeliversEncrypt : Prop :=
  (∀ (s : State) (p q : Pins) (busy holds rest : List Pins), s.ph = 0b00000#5 →
    s.inputs = p :: (busy ++ (holds ++ q :: rest)) →
    p.rst = false → p.inValid = true → busy.length = latency p.inMsg p.inKey → noReset busy → holdsBack holds →
    q.rst = false → q.outReady = true →
    events (busy.length + holds.length + 2) s =
      [.accepted p.inMsg p.inKey,
       .released (encrypt p.inMsg p.inKey).onPorts.1 (encrypt p.inMsg p.inKey).onPorts.2] ∧
    ∃ t, edges (busy.length + holds.length + 2) s = .next t ∧ t.ph = 0b00000#5 ∧ t.inReady = true ∧
      (t.S, t.err) = (encrypt p.inMsg p.inKey).onPorts ∧ t.inputs = rest) ∧
  (∀ (s : State) (p r : Pins) (rows rest : List Pins), s.ph = 0b00000#5 → s.inputs = p :: (rows ++ r :: rest) →
    p.rst = false → p.inValid = true → noReset rows → holdsBack (rows.drop (latency p.inMsg p.inKey)) →
    r.rst = true →
    events (rows.length + 2) s = [.accepted p.inMsg p.inKey, .reset] ∧
    ∃ t, edges (rows.length + 2) s = .next t ∧ t.regs = State.reset.regs ∧ t.inputs = rest)

/-- R189: a host that always offers and is always ready has its next input accepted nine edges after a legal input and
two edges after one that is BadLength, and no earlier. -/
def Obligations.BackToBackTransactionTiming : Prop :=
  (∀ (s : State) (p q : Pins) (rows rest : List Pins), s.ph = 0b00000#5 → s.inputs = p :: (rows ++ q :: rest) →
    rows.length = 8 → (∀ r ∈ p :: q :: rows, r.rst = false ∧ r.inValid = true ∧ r.outReady = true) →
    badlen p.inMsg p.inKey = false →
    events 9 s = [.accepted p.inMsg p.inKey, .released (cipher (msgBlock p.inMsg) (keyField p.inKey)) false] ∧
    events 10 s =
      [.accepted p.inMsg p.inKey, .released (cipher (msgBlock p.inMsg) (keyField p.inKey)) false,
       .accepted q.inMsg q.inKey]) ∧
  (∀ (s : State) (p r q : Pins) (rest : List Pins), s.ph = 0b00000#5 → s.inputs = p :: r :: q :: rest →
    (∀ x ∈ [p, r, q], x.rst = false ∧ x.inValid = true ∧ x.outReady = true) →
    badlen p.inMsg p.inKey = true →
    events 2 s = [.accepted p.inMsg p.inKey, .released 0 true] ∧
    events 3 s = [.accepted p.inMsg p.inKey, .released 0 true, .accepted q.inMsg q.inKey])

/-- R59, R131, R181: on every run from reset, under every input whatsoever, resets included, each output transfer
carries ENCRYPT's result for the one input in flight, in order, and a reset drops that input. -/
def Obligations.EveryRunServesItsInputsInOrder : Prop :=
  ∀ (rows : List Pins) (d n : Nat),
    served none (events n { State.reset with inputs := rows, freeDraws := d }) = true

/-- R31: two machines that wait in IDLE and hold different values of earlier transactions look the same to a host that
drives the same inputs, for ever. What a host sees is `State.visible`, which leaves out_ct and out_err out while
out_valid = 0: that reading of 93_implementation_defined.md I2 is the model's (notes/assumptions/11.md). -/
def Obligations.NoTransactionObservesAnEarlierOne : Prop :=
  ∀ (s s' : State) (n : Nat), s.ph = 0b00000#5 → s'.ph = 0b00000#5 → s.inputs = s'.inputs →
    s.freeDraws = s'.freeDraws → visibleRun n s = visibleRun n s'

/-- R31: an accepted input overwrites S, K and err, so nothing of an earlier transaction is left after its edge. -/
def Obligations.AcceptOverwritesEveryRegister : Prop :=
  ∀ s s' : State, s.ph = 0b00000#5 → s'.ph = 0b00000#5 → s.pins = s'.pins → s.pins.rst = false →
    s.pins.inValid = true → ∃ t t', step s = .next t ∧ step s' = .next t' ∧ t.regs = t'.regs
end

