-- ==== Sys2Proof/Laws/Decode.lean ====
section
/-! SUPPORT. The phase word map, row by row, and where the decoder rejects. -/

namespace Sys2Proof

/-- No phase word falls through the map. -/
theorem decodePhase_isOk : ∀ ph : PhaseWord, (decodePhase ph).isOk = true := by
  decide +kernel

theorem decodePhase_exists (ph : PhaseWord) : ∃ i, decodePhase ph = .ok i := by
  have h := decodePhase_isOk ph
  cases hd : decodePhase ph with
  | ok i => exact ⟨i, rfl⟩
  | error e => simp [hd, Except.isOk, Except.toBool] at h

@[simp] theorem decodePhase_idle : decodePhase 0b00000#5 = .ok .idle := rfl
@[simp] theorem decodePhase_round1 : decodePhase 0b01001#5 = .ok .round1 := rfl
@[simp] theorem decodePhase_round2 : decodePhase 0b01010#5 = .ok .round2 := rfl
@[simp] theorem decodePhase_round3 : decodePhase 0b01011#5 = .ok .round3 := rfl
@[simp] theorem decodePhase_round4 : decodePhase 0b01100#5 = .ok .round4 := rfl
@[simp] theorem decodePhase_round5 : decodePhase 0b01101#5 = .ok .round5 := rfl
@[simp] theorem decodePhase_round6 : decodePhase 0b01110#5 = .ok .round6 := rfl
@[simp] theorem decodePhase_final : decodePhase 0b01111#5 = .ok .final := rfl
@[simp] theorem decodePhase_done : decodePhase 0b10000#5 = .ok .done := rfl

/-- The decoder reads an input transfer exactly when the handshake word is 11. -/
theorem decode_transfer (m k : PortWord) : decode (.transfer 0b11#2 m k) = .ok (.encrypt m k) := rfl

theorem decode_phase (ph : PhaseWord) : decode (.phase ph) = decodePhase ph := rfl

end Sys2Proof
end

