-- ==== Sys2Proof/Laws/State.lean ====
section
/-! SUPPORT. One lemma per field per update of the state, and the ports after an update that leaves the rows alone. -/

namespace Sys2Proof.Machine

variable (s : State)

/-! ### setPhase -/

@[simp] theorem State.setPhase_st (a : Mode) (b : Rnd) : (s.setPhase a b).st = a := rfl
@[simp] theorem State.setPhase_rnd (a : Mode) (b : Rnd) : (s.setPhase a b).rnd = b := rfl
@[simp] theorem State.setPhase_S (a : Mode) (b : Rnd) : (s.setPhase a b).S = s.S := rfl
@[simp] theorem State.setPhase_K (a : Mode) (b : Rnd) : (s.setPhase a b).K = s.K := rfl
@[simp] theorem State.setPhase_err (a : Mode) (b : Rnd) : (s.setPhase a b).err = s.err := rfl
@[simp] theorem State.setPhase_inputs (a : Mode) (b : Rnd) : (s.setPhase a b).inputs = s.inputs := rfl
@[simp] theorem State.setPhase_freeDraws (a : Mode) (b : Rnd) : (s.setPhase a b).freeDraws = s.freeDraws := rfl
@[simp] theorem State.setPhase_ph (a : Mode) (b : Rnd) : (s.setPhase a b).ph = a ++ b := rfl
@[simp] theorem State.setPhase_pins (a : Mode) (b : Rnd) : (s.setPhase a b).pins = s.pins := rfl

/-! ### setS -/

@[simp] theorem State.setS_st (v : Block) : (s.setS v).st = s.st := rfl
@[simp] theorem State.setS_rnd (v : Block) : (s.setS v).rnd = s.rnd := rfl
@[simp] theorem State.setS_S (v : Block) : (s.setS v).S = v := rfl
@[simp] theorem State.setS_K (v : Block) : (s.setS v).K = s.K := rfl
@[simp] theorem State.setS_err (v : Block) : (s.setS v).err = s.err := rfl
@[simp] theorem State.setS_inputs (v : Block) : (s.setS v).inputs = s.inputs := rfl
@[simp] theorem State.setS_freeDraws (v : Block) : (s.setS v).freeDraws = s.freeDraws := rfl
@[simp] theorem State.setS_ph (v : Block) : (s.setS v).ph = s.ph := rfl
@[simp] theorem State.setS_pins (v : Block) : (s.setS v).pins = s.pins := rfl

/-! ### setTransaction -/

@[simp] theorem State.setTransaction_st (v : Block) (k : Key) (e : Bool) : (s.setTransaction v k e).st = s.st := rfl
@[simp] theorem State.setTransaction_rnd (v : Block) (k : Key) (e : Bool) : (s.setTransaction v k e).rnd = s.rnd := rfl
@[simp] theorem State.setTransaction_S (v : Block) (k : Key) (e : Bool) : (s.setTransaction v k e).S = v := rfl
@[simp] theorem State.setTransaction_K (v : Block) (k : Key) (e : Bool) : (s.setTransaction v k e).K = k := rfl
@[simp] theorem State.setTransaction_err (v : Block) (k : Key) (e : Bool) : (s.setTransaction v k e).err = e := rfl
@[simp] theorem State.setTransaction_inputs (v : Block) (k : Key) (e : Bool) : (s.setTransaction v k e).inputs = s.inputs := rfl
@[simp] theorem State.setTransaction_freeDraws (v : Block) (k : Key) (e : Bool) : (s.setTransaction v k e).freeDraws = s.freeDraws := rfl
@[simp] theorem State.setTransaction_ph (v : Block) (k : Key) (e : Bool) : (s.setTransaction v k e).ph = s.ph := rfl
@[simp] theorem State.setTransaction_pins (v : Block) (k : Key) (e : Bool) :
    (s.setTransaction v k e).pins = s.pins := rfl

/-! ### drive -/

@[simp] theorem State.drive_st (p : Pins) : (s.drive p).st = s.st := rfl
@[simp] theorem State.drive_rnd (p : Pins) : (s.drive p).rnd = s.rnd := rfl
@[simp] theorem State.drive_S (p : Pins) : (s.drive p).S = s.S := rfl
@[simp] theorem State.drive_K (p : Pins) : (s.drive p).K = s.K := rfl
@[simp] theorem State.drive_err (p : Pins) : (s.drive p).err = s.err := rfl
@[simp] theorem State.drive_inputs (p : Pins) : (s.drive p).inputs = p :: s.inputs.tail := rfl
@[simp] theorem State.drive_freeDraws (p : Pins) : (s.drive p).freeDraws = s.freeDraws := rfl
@[simp] theorem State.drive_ph (p : Pins) : (s.drive p).ph = s.ph := rfl
@[simp] theorem State.drive_pins (p : Pins) : (s.drive p).pins = p := rfl

/-! ### resetEdge -/

@[simp] theorem State.resetEdge_st : s.resetEdge.st = modeIdle := rfl
@[simp] theorem State.resetEdge_rnd : s.resetEdge.rnd = 0 := rfl
@[simp] theorem State.resetEdge_S : s.resetEdge.S = 0 := rfl
@[simp] theorem State.resetEdge_K : s.resetEdge.K = 0 := rfl
@[simp] theorem State.resetEdge_err : s.resetEdge.err = false := rfl
@[simp] theorem State.resetEdge_inputs : s.resetEdge.inputs = s.inputs := rfl
@[simp] theorem State.resetEdge_freeDraws : s.resetEdge.freeDraws = s.freeDraws := rfl
@[simp] theorem State.resetEdge_ph : s.resetEdge.ph = 0 := by
  show (modeIdle ++ (0 : Rnd) : PhaseWord) = 0
  decide
@[simp] theorem State.resetEdge_pins : s.resetEdge.pins = s.pins := rfl

/-! ### tick -/

@[simp] theorem State.tick_st : s.tick.st = s.st := by unfold tick; split <;> rfl
@[simp] theorem State.tick_rnd : s.tick.rnd = s.rnd := by unfold tick; split <;> rfl
@[simp] theorem State.tick_S : s.tick.S = s.S := by unfold tick; split <;> rfl
@[simp] theorem State.tick_K : s.tick.K = s.K := by unfold tick; split <;> rfl
@[simp] theorem State.tick_err : s.tick.err = s.err := by unfold tick; split <;> rfl
@[simp] theorem State.tick_inputs : s.tick.inputs = s.inputs.tail := by
  unfold tick; split <;> rename_i h <;> simp [h]
theorem State.tick_freeDraws :
    s.tick.freeDraws = if s.inputs = [] then s.freeDraws + 1 else s.freeDraws := by
  unfold tick; split <;> rename_i h <;> simp [h]
theorem State.tick_eq :
    s.tick = { s with
      inputs := s.inputs.tail, freeDraws := if s.inputs = [] then s.freeDraws + 1 else s.freeDraws } := by
  unfold tick; split <;> rename_i h <;> simp [h]
@[simp] theorem State.tick_ph : s.tick.ph = s.ph := by simp [ph]

/-- The row laid down for the next edge is what the ports carry. -/
theorem State.pins_of_inputs_cons {s : State} {p : Pins} {ps : List Pins} (h : s.inputs = p :: ps) : s.pins = p := by
  simp [pins, h]

/-- An edge takes the row laid down and draws nothing. -/
theorem State.tick_of_inputs_cons {s : State} {p : Pins} {ps : List Pins} (h : s.inputs = p :: ps) :
    s.tick = { s with inputs := ps } := by
  simp [tick, h]

/-- A phase word determines its two fields (R76). -/
theorem phase_append_inj :
    ∀ (x a : Mode) (y b : Rnd), (x ++ y : PhaseWord) = a ++ b ↔ x = a ∧ y = b := by
  decide +kernel

/-- The phase word fixes both of its registers. -/
theorem State.ph_eq_iff (a : Mode) (b : Rnd) : s.ph = a ++ b ↔ s.st = a ∧ s.rnd = b :=
  phase_append_inj _ _ _ _

end Sys2Proof.Machine
end

