-- ==== Sys2Proof/Laws/Ops.lean ====
section
/-! SUPPORT. What each shared operation over the registers can do, said once, and what an edge decodes. -/

namespace Sys2Proof.Machine

variable (s : State)

/-! ### The input transfer -/

/-- ACCEPT of an input that is too wide is BadLength entry, and of any other starts a transaction. -/
theorem State.accept_cases (m k : PortWord) :
    (badlen m k = true ∧ s.accept m k = { s with st := modeDone, rnd := 0, S := 0, K := 0, err := true }) ∨
    (badlen m k = false ∧ s.accept m k =
      { s with st := modeRun, rnd := 1, S := msgBlock m, K := keyField k, err := false }) := by
  cases h : badlen m k
  · exact .inr ⟨rfl, by simp [accept, h, setTransaction, setPhase]⟩
  · exact .inl ⟨rfl, by simp [accept, h, takeBadLength, setTransaction, setPhase]⟩

theorem State.accept_of_badlen {m k : PortWord} (h : badlen m k = true) :
    s.accept m k = { s with st := modeDone, rnd := 0, S := 0, K := 0, err := true } := by
  simp [accept, h, takeBadLength, setTransaction, setPhase]

theorem State.accept_of_fits {m k : PortWord} (h : badlen m k = false) :
    s.accept m k = { s with st := modeRun, rnd := 1, S := msgBlock m, K := keyField k, err := false } := by
  simp [accept, h, setTransaction, setPhase]

@[simp] theorem State.accept_inputs (m k : PortWord) : (s.accept m k).inputs = s.inputs := by
  unfold accept; split <;> rfl

@[simp] theorem State.accept_freeDraws (m k : PortWord) : (s.accept m k).freeDraws = s.freeDraws := by
  unfold accept; split <;> rfl

/-! ### The other register writes -/

theorem State.roundEdge_eq (i : RoundIndex) :
    s.roundEdge i = { s with S := roundFn s.S (ksel s.K i), rnd := s.rnd + 1 } := rfl

theorem State.finalEdge_eq :
    s.finalEdge = { s with S := whiten s.S (kfin s.K), st := modeDone, rnd := 0 } := rfl

theorem State.release_eq : s.release = { s with st := modeIdle, rnd := 0 } := rfl

theorem State.recover_eq : s.recover = { s with st := modeIdle, rnd := 0 } := rfl

theorem State.resetEdge_eq :
    s.resetEdge = { s with st := modeIdle, rnd := 0, S := 0, K := 0, err := false } := rfl

/-! ### What an edge decodes -/

/-- The handshake word is 11 when the host offers and the machine is ready. -/
theorem State.hs_eq_transfer : s.hs = 0b11#2 ↔ s.pins.inValid = true ∧ s.inReady = true := by
  unfold hs
  cases s.pins.inValid <;> cases s.inReady <;> decide

/-- In PH = 00000 the machine is ready. -/
theorem State.inReady_of_ph_zero {s : State} (h : s.ph = 0b00000#5) : s.inReady = true := by
  have hst : s.st = 0#2 := ((s.ph_eq_iff 0#2 0#3).1 h).1
  simp [inReady, hst]

theorem State.fetch_of_offer {s : State} (h : s.ph = 0b00000#5) (hv : s.pins.inValid = true) :
    s.fetch = .transfer 0b11#2 s.pins.inMsg s.pins.inKey := by
  have hh : s.hs = 0b11#2 := s.hs_eq_transfer.2 ⟨hv, inReady_of_ph_zero h⟩
  unfold fetch
  rw [if_pos ⟨h, hh⟩, hh]

theorem State.fetch_of_no_offer {s : State} (h : s.ph = 0b00000#5 → s.pins.inValid = false) :
    s.fetch = .phase s.ph := by
  unfold fetch
  rw [if_neg]
  rintro ⟨h0, hh⟩
  exact absurd (s.hs_eq_transfer.1 hh).1 (by simp [h h0])

end Sys2Proof.Machine
end

