-- ==== Sys2Proof/Laws/PerInstr.lean ====
section
/-! SUPPORT. Statements about every instruction, one lemma per constructor. -/

namespace Sys2Proof.Laws.RowMatches

/-- The word that the encoder gives an instruction has the fixed bits of the instruction's own row of
spec/opcode_table.json. -/
def Statement (i : Instr) : Prop :=
  match encode i with
  | .transfer hs _ _ => i.mnemonic = "ENCRYPT" ∧ hs &&& 3#2 = 3#2
  | .phase ph => ∃ r ∈ phaseRows, r.mnemonic = i.mnemonic ∧ r.selects ph = true

/-- A row of the map, named by its place in it, selects the word. -/
theorem of_row {ph : PhaseWord} {m : String} (n : Fin phaseRows.length) (hm : (phaseRows.get n).mnemonic = m)
    (hs : (phaseRows.get n).selects ph = true) : ∃ r ∈ phaseRows, r.mnemonic = m ∧ r.selects ph = true :=
  ⟨_, List.get_mem _ _, hm, hs⟩

theorem encrypt (m k : PortWord) : Statement (.encrypt m k) := ⟨rfl, rfl⟩
theorem idle : Statement .idle := of_row ⟨0, by decide⟩ rfl rfl
theorem round1 : Statement .round1 := of_row ⟨1, by decide⟩ rfl rfl
theorem round2 : Statement .round2 := of_row ⟨2, by decide⟩ rfl rfl
theorem round3 : Statement .round3 := of_row ⟨3, by decide⟩ rfl rfl
theorem round4 : Statement .round4 := of_row ⟨4, by decide⟩ rfl rfl
theorem round5 : Statement .round5 := of_row ⟨5, by decide⟩ rfl rfl
theorem round6 : Statement .round6 := of_row ⟨6, by decide⟩ rfl rfl
theorem final : Statement .final := of_row ⟨7, by decide⟩ rfl rfl
theorem done : Statement .done := of_row ⟨8, by decide⟩ rfl rfl
theorem reserved00001 : Statement .reserved00001 := of_row ⟨9, by decide⟩ rfl rfl
theorem reserved0001x (x : BitVec 1) : Statement (.reserved0001x x) :=
  of_row ⟨10, by decide⟩ rfl (by revert x; decide)
theorem reserved001xx (x : BitVec 2) : Statement (.reserved001xx x) :=
  of_row ⟨11, by decide⟩ rfl (by revert x; decide)
theorem reserved01000 : Statement .reserved01000 := of_row ⟨12, by decide⟩ rfl rfl
theorem reserved10001 : Statement .reserved10001 := of_row ⟨13, by decide⟩ rfl rfl
theorem reserved1001x (x : BitVec 1) : Statement (.reserved1001x x) :=
  of_row ⟨14, by decide⟩ rfl (by revert x; decide)
theorem reserved101xx (x : BitVec 2) : Statement (.reserved101xx x) :=
  of_row ⟨15, by decide⟩ rfl (by revert x; decide)
theorem reserved11xxx (x : BitVec 3) : Statement (.reserved11xxx x) :=
  of_row ⟨16, by decide⟩ rfl (by revert x; decide)

end Sys2Proof.Laws.RowMatches
end

