-- ==== Sys2Proof/Laws/Step.lean ====
section
/-! SUPPORT. What exec and step can do, said once: exec always answers a next state and leaves the rows of inputs alone,
and a step is a reset edge or the decoded instruction. The unfoldings of runs. -/

namespace Sys2Proof.Machine

/-- Every instruction answers a next state, and none takes a row of inputs: the step does. -/
theorem exec_next (i : Instr) (s : State) :
    ∃ t, exec i s = .next t ∧ t.inputs = s.inputs ∧ t.freeDraws = s.freeDraws := by
  cases i with
  | encrypt m k => exact ⟨_, rfl, by simp, by simp⟩
  | idle =>
    refine ⟨if s.pins.inValid then s.accept s.pins.inMsg s.pins.inKey else s, rfl, ?_, ?_⟩ <;> split <;> simp
  | done =>
    refine ⟨if s.pins.outReady then s.release else s, rfl, ?_, ?_⟩ <;> split <;> rfl
  | _ => exact ⟨_, rfl, rfl, rfl⟩

/-- Everything a step that answers a next state can have done. -/
theorem step_next_cases {s t : State} (h : step s = .next t) :
    (s.pins.rst = true ∧ t = s.resetEdge.tick) ∨
    (s.pins.rst = false ∧ ∃ i u, decode s.fetch = .ok i ∧ exec i s = .next u ∧ t = u.tick) := by
  unfold step at h
  split at h
  · exact .inl ⟨‹_›, by simpa [afterEdge] using h.symm⟩
  · next hr =>
    split at h
    · next i hi =>
      obtain ⟨u, hu, -⟩ := exec_next i s
      exact .inr ⟨by simpa using hr, i, u, hi, hu, by simpa [hu, afterEdge] using h.symm⟩
    · cases h

theorem step_of_rst {s : State} (h : s.pins.rst = true) : step s = .next s.resetEdge.tick := by
  simp [step, h, afterEdge]

/-- An edge in PH = 00000 at which the host offers an input. -/
theorem step_accept {s : State} (hr : s.pins.rst = false) (h : s.ph = 0b00000#5) (hv : s.pins.inValid = true) :
    step s = .next (s.accept s.pins.inMsg s.pins.inKey).tick := by
  simp [step, hr, State.fetch_of_offer h hv, decode_transfer, exec, execEncrypt, afterEdge]

/-- An edge in any other phase word, or one at which the host offers nothing. -/
theorem step_phase {s : State} {i : Instr} (hr : s.pins.rst = false)
    (hv : s.ph = 0b00000#5 → s.pins.inValid = false) (hi : decodePhase s.ph = .ok i) :
    step s = afterEdge (exec i s) := by
  simp [step, hr, State.fetch_of_no_offer hv, decode_phase, hi]

/-! ### The cases of a step, by reset and by phase word -/

/-- The phase words of ROUND1 to ROUND6, with the round and the counter of each (R77). -/
inductive RoundPhase : PhaseWord → RoundIndex → Rnd → Prop
  | r1 : RoundPhase 0b01001#5 .r1 1
  | r2 : RoundPhase 0b01010#5 .r2 2
  | r3 : RoundPhase 0b01011#5 .r3 3
  | r4 : RoundPhase 0b01100#5 .r4 4
  | r5 : RoundPhase 0b01101#5 .r5 5
  | r6 : RoundPhase 0b01110#5 .r6 6

/-- The instruction of a round. -/
def roundInstr : RoundIndex → Instr
  | .r1 => .round1
  | .r2 => .round2
  | .r3 => .round3
  | .r4 => .round4
  | .r5 => .round5
  | .r6 => .round6

theorem exec_roundInstr (i : RoundIndex) (s : State) : exec (roundInstr i) s = .next (s.roundEdge i) := by
  cases i <;> rfl

theorem RoundPhase.ph_eq {ph : PhaseWord} {i : RoundIndex} {n : Rnd} (h : RoundPhase ph i n) : ph = 1#2 ++ n := by
  cases h <;> decide

theorem RoundPhase.decode {ph : PhaseWord} {i : RoundIndex} {n : Rnd} (h : RoundPhase ph i n) :
    decodePhase ph = .ok (roundInstr i) := by
  cases h <;> rfl

theorem RoundPhase.ne_idle {ph : PhaseWord} {i : RoundIndex} {n : Rnd} (h : RoundPhase ph i n) : ph ≠ 0b00000#5 := by
  cases h <;> decide

theorem RoundPhase.ne_done {ph : PhaseWord} {i : RoundIndex} {n : Rnd} (h : RoundPhase ph i n) : ph ≠ 0b10000#5 := by
  cases h <;> decide

theorem step_wait {s : State} (hr : s.pins.rst = false) (h : s.ph = 0b00000#5) (hv : s.pins.inValid = false) :
    step s = .next s.tick := by
  rw [step_phase hr (fun _ => hv) (i := .idle) (by rw [h]; rfl)]
  simp [exec, execIdle, hv, afterEdge]

theorem step_round {s : State} {i : RoundIndex} {n : Rnd} (hr : s.pins.rst = false) (h : RoundPhase s.ph i n) :
    step s = .next (s.roundEdge i).tick := by
  rw [step_phase hr (fun h0 => absurd h0 h.ne_idle) h.decode, exec_roundInstr]
  rfl

theorem step_final {s : State} (hr : s.pins.rst = false) (h : s.ph = 0b01111#5) :
    step s = .next s.finalEdge.tick := by
  rw [step_phase hr (fun h0 => absurd (h ▸ h0) (by decide)) (i := .final) (by rw [h]; rfl)]
  rfl

theorem step_done {s : State} (hr : s.pins.rst = false) (h : s.ph = 0b10000#5) :
    step s = .next (if s.pins.outReady then s.release else s).tick := by
  rw [step_phase hr (fun h0 => absurd (h ▸ h0) (by decide)) (i := .done) (by rw [h]; rfl)]
  rfl

/-- An instruction that is RECOVER. -/
def isReserved : Instr → Bool
  | .reserved00001 | .reserved0001x _ | .reserved001xx _ | .reserved01000 => true
  | .reserved10001 | .reserved1001x _ | .reserved101xx _ | .reserved11xxx _ => true
  | _ => false

theorem exec_of_isReserved {i : Instr} (h : isReserved i = true) (s : State) : exec i s = .next s.recover := by
  cases i <;> first | rfl | cases h

/-- Every phase word that no transaction visits decodes to a reserved row. -/
theorem decodePhase_of_not_legal :
    ∀ ph : PhaseWord, legalPhase ph = false → (decodePhase ph).toOption.any isReserved = true := by
  decide +kernel

theorem step_reserved {s : State} (hr : s.pins.rst = false) (h : legalPhase s.ph = false) :
    step s = .next s.recover.tick := by
  obtain ⟨i, hi⟩ := decodePhase_exists s.ph
  have hres := decodePhase_of_not_legal s.ph h
  rw [hi] at hres
  rw [step_phase hr (fun h0 => absurd (h0 ▸ h) (by decide)) hi, exec_of_isReserved hres]
  rfl

/-- The cases of an edge: its condition on the state, the next state, and the event the host sees. -/
inductive StepCase (s : State) : State → Option Event → Prop
  | reset (hr : s.pins.rst = true) : StepCase s s.resetEdge.tick (some .reset)
  | wait (hr : s.pins.rst = false) (h : s.ph = 0b00000#5) (hv : s.pins.inValid = false) : StepCase s s.tick none
  | accept (hr : s.pins.rst = false) (h : s.ph = 0b00000#5) (hv : s.pins.inValid = true) :
      StepCase s (s.accept s.pins.inMsg s.pins.inKey).tick (some (.accepted s.pins.inMsg s.pins.inKey))
  | round (i : RoundIndex) (n : Rnd) (hr : s.pins.rst = false) (h : RoundPhase s.ph i n) (hst : s.st = modeRun)
      (hn : s.rnd = n) : StepCase s (s.roundEdge i).tick none
  | final (hr : s.pins.rst = false) (h : s.ph = 0b01111#5) : StepCase s s.finalEdge.tick none
  | release (hr : s.pins.rst = false) (h : s.ph = 0b10000#5) (ho : s.pins.outReady = true) :
      StepCase s s.release.tick (some (.released s.S s.err))
  | hold (hr : s.pins.rst = false) (h : s.ph = 0b10000#5) (ho : s.pins.outReady = false) : StepCase s s.tick none
  | reserved (hr : s.pins.rst = false) (h : legalPhase s.ph = false) : StepCase s s.recover.tick none

theorem legalPhase_cases :
    ∀ ph : PhaseWord, legalPhase ph = true → ph = 0b00000#5 ∨ (∃ i n, RoundPhase ph i n) ∨ ph = 0b01111#5 ∨
      ph = 0b10000#5 := by
  intro ph h
  simp only [legalPhase, Bool.or_eq_true, beq_iff_eq] at h
  rcases h with (((((((h | h) | h) | h) | h) | h) | h) | h) | h <;> subst h
  · exact .inl rfl
  · exact .inr (.inl ⟨_, _, .r1⟩)
  · exact .inr (.inl ⟨_, _, .r2⟩)
  · exact .inr (.inl ⟨_, _, .r3⟩)
  · exact .inr (.inl ⟨_, _, .r4⟩)
  · exact .inr (.inl ⟨_, _, .r5⟩)
  · exact .inr (.inl ⟨_, _, .r6⟩)
  · exact .inr (.inr (.inl rfl))
  · exact .inr (.inr (.inr rfl))

/-- Every step is one of the cases. -/
theorem step_case {s t : State} (h : step s = .next t) : StepCase s t s.event := by
  cases hr : s.pins.rst
  case true =>
    obtain rfl : s.resetEdge.tick = t := by simpa [step_of_rst hr] using h
    simpa [State.event, hr] using StepCase.reset hr
  cases hl : legalPhase s.ph
  case false =>
    obtain rfl : s.recover.tick = t := by simpa [step_reserved hr hl] using h
    have h0 : s.ph ≠ 0b00000#5 := fun h0 => absurd (h0 ▸ hl) (by decide)
    have h1 : s.ph ≠ 0b10000#5 := fun h1 => absurd (h1 ▸ hl) (by decide)
    simpa [State.event, hr, h0, h1] using StepCase.reserved hr hl
  rcases legalPhase_cases _ hl with hp | ⟨i, n, hp⟩ | hp | hp
  · cases hv : s.pins.inValid
    · obtain rfl : s.tick = t := by simpa [step_wait hr hp hv] using h
      simpa [State.event, hr, hp, hv] using StepCase.wait hr hp hv
    · obtain rfl : (s.accept s.pins.inMsg s.pins.inKey).tick = t := by simpa [step_accept hr hp hv] using h
      simpa [State.event, hr, hp, hv, State.inReady_of_ph_zero hp] using StepCase.accept hr hp hv
  · obtain rfl : (s.roundEdge i).tick = t := by simpa [step_round hr hp] using h
    have hsplit := (s.ph_eq_iff _ _).1 hp.ph_eq
    simpa [State.event, hr, hp.ne_idle, hp.ne_done] using StepCase.round i n hr hp hsplit.1 hsplit.2
  · obtain rfl : s.finalEdge.tick = t := by simpa [step_final hr hp] using h
    simpa [State.event, hr, hp] using StepCase.final hr hp
  · have hst : s.outValid = true := by simp [State.outValid, ((s.ph_eq_iff 2#2 0#3).1 hp).1]
    cases ho : s.pins.outReady
    · obtain rfl : s.tick = t := by simpa [step_done hr hp, ho] using h
      simpa [State.event, hr, hp, ho] using StepCase.hold hr hp ho
    · obtain rfl : s.release.tick = t := by simpa [step_done hr hp, ho] using h
      simpa [State.event, hr, hp, ho, hst, State.outCt, State.outErr] using StepCase.release hr hp ho

/-! ### Runs -/

@[simp] theorem edges_zero (s : State) : edges 0 s = .next s := rfl

theorem edges_succ_of_step {s t : State} (h : step s = .next t) (n : Nat) : edges (n + 1) s = edges n t := by
  simp [edges, h]

theorem events_succ_of_step {s t : State} (h : step s = .next t) (n : Nat) :
    events (n + 1) s = s.event.toList ++ events n t := by
  simp [events, h]

theorem visibleRun_succ_of_step {s t : State} (h : step s = .next t) (n : Nat) :
    visibleRun (n + 1) s = s.visible :: visibleRun n t := by
  simp [visibleRun, h]

/-- A run of m + n edges is a run of m and then one of n. -/
theorem edges_add (m n : Nat) {s t : State} (h : edges m s = .next t) : edges (m + n) s = edges n t := by
  induction m generalizing s with
  | zero => cases h; simp
  | succ m ih =>
    rw [Nat.succ_add]
    simp only [edges] at h ⊢
    split at h
    · exact ih h
    · cases h
    · cases h

/-! ### The server of Safety.lean -/

@[simp] theorem serveEvent_reset (p : Option (PortWord × PortWord)) : serveEvent p .reset = some none := by
  cases p <;> rfl

@[simp] theorem serveEvent_accepted (m k : PortWord) : serveEvent none (.accepted m k) = some (some (m, k)) := rfl

theorem serveEvent_released {m k : PortWord} {ct : Block} {err : Bool} (h : (ct, err) = (encrypt m k).onPorts) :
    serveEvent (some (m, k)) (.released ct err) = some none :=
  if_pos h

@[simp] theorem served_nil (p : Option (PortWord × PortWord)) : served p [] = true := rfl

theorem served_cons {p q : Option (PortWord × PortWord)} {e : Event} (h : serveEvent p e = some q) (es : List Event) :
    served p (e :: es) = served q es := by
  simp [served, h]

end Sys2Proof.Machine
end

