-- ==== Sys2Proof/Tests/Slice0.lean ====
section
/-! SUPPORT. Tests, with expected results from spec/95_test_vectors.md and the examples of the rules, and for each
statement with hypotheses a witness that meets them together. -/

namespace Sys2Proof.Tests

open Sys2Proof.Machine

/-! ### Helpers -/

/-- A row of inputs without reset. -/
def row (inValid : Bool) (m k : PortWord) (outReady : Bool) : Pins :=
  { rst := false, inValid := inValid, inMsg := m, inKey := k, outReady := outReady }

/-- A row that asserts rst while it offers an input and is ready. -/
def rstRow : Pins := { rst := true, inValid := true, inMsg := 1, inKey := 2, outReady := true }

/-- A row that offers the demo transfer `ENC 0x00DEADBEEF, 0xC0FFEE15C0FFEE`, output held back. -/
def demo : Pins := row true 0x00000000DEADBEEF 0x00C0FFEE15C0FFEE false

/-- A row that offers a message of 41 bits. -/
def tooWide : Pins := row true 0x000001FFFFFFFFFF 0x00C0FFEE15C0FFEE true

/-- A row that is ready for the output and offers nothing. -/
def ready : Pins := row false 0 0 true

/-- A state in the given phase, with values in S and K. -/
def inPhase (st : Mode) (rnd : Rnd) (rows : List Pins) : State :=
  { st := st, rnd := rnd, S := 0x00DEADBEEF, K := 0xC0FFEE15C0FFEE, err := false, inputs := rows, freeDraws := 0 }

/-- The next state of an outcome, if it is one. -/
def nextOf : Host.Outcome State Fault Refusal → Option State
  | .next t => some t
  | .fault _ => none
  | .refused _ => none

/-! ### The fixed parameters (R6) as the model has them -/

theorem test_parameters :
    sliceOrder.length = Config.slices ∧ tableRom.toList.length = Config.tableN ∧
      RoundIndex.inOrder.length = Config.rounds ∧ rotr8 (1#40 <<< Config.rot) = 1#40 ∧ Config.inFlight = 1 := by
  decide

/-! ### WellFormed refuses an ill-formed term, once for each check -/

theorem test_msgFits_refuses_41_bits : (Instr.encrypt 0x0000010000000000 0).wellFormed = false := by decide
theorem test_keyFits_refuses_57_bits : (Instr.encrypt 0 0x0100000000000000).wellFormed = false := by decide
theorem test_wellFormed_widest :
    (Instr.encrypt 0x000000FFFFFFFFFF 0x00FFFFFFFFFFFFFF).wellFormed = true := by decide

/-! ### Decoding, each word written out from R77 and R82 -/

theorem test_decode_encrypt : decode (.transfer 0b11 0x123 0x456) = .ok (.encrypt 0x123 0x456) := rfl
theorem test_decode_no_transfer : decode (.transfer 0b01 0x123 0x456) = .error (.noInputTransfer 0b01) := rfl
theorem test_decode_idle : decode (.phase 0b00000) = .ok .idle := rfl
theorem test_decode_round1 : decode (.phase 0b01001) = .ok .round1 := rfl
theorem test_decode_round2 : decode (.phase 0b01010) = .ok .round2 := rfl
theorem test_decode_round3 : decode (.phase 0b01011) = .ok .round3 := rfl
theorem test_decode_round4 : decode (.phase 0b01100) = .ok .round4 := rfl
theorem test_decode_round5 : decode (.phase 0b01101) = .ok .round5 := rfl
theorem test_decode_round6 : decode (.phase 0b01110) = .ok .round6 := rfl
theorem test_decode_final : decode (.phase 0b01111) = .ok .final := rfl
theorem test_decode_done : decode (.phase 0b10000) = .ok .done := rfl
theorem test_decode_reserved00001 : decode (.phase 0b00001) = .ok .reserved00001 := rfl
theorem test_decode_reserved0001x : decode (.phase 0b00011) = .ok (.reserved0001x 0b1) := rfl
theorem test_decode_reserved001xx : decode (.phase 0b00110) = .ok (.reserved001xx 0b10) := rfl
theorem test_decode_reserved01000 : decode (.phase 0b01000) = .ok .reserved01000 := rfl
theorem test_decode_reserved10001 : decode (.phase 0b10001) = .ok .reserved10001 := rfl
theorem test_decode_reserved1001x : decode (.phase 0b10010) = .ok (.reserved1001x 0b0) := rfl
theorem test_decode_reserved101xx : decode (.phase 0b10111) = .ok (.reserved101xx 0b11) := rfl
theorem test_decode_reserved11xxx : decode (.phase 0b11010) = .ok (.reserved11xxx 0b010) := rfl

/-- The table's own words, in the order of its rows: match with every don't-care bit 0. -/
theorem test_table_words :
    [3, 0, 9, 10, 11, 12, 13, 14, 15, 16, 1, 2, 4, 8, 17, 18, 20, 24].map (decodeTableWord 8) =
      [some (.encrypt 0 0), some .idle, some .round1, some .round2, some .round3, some .round4, some .round5,
       some .round6, some .final, some .done, some .reserved00001, some (.reserved0001x 0), some (.reserved001xx 0),
       some .reserved01000, some .reserved10001, some (.reserved1001x 0), some (.reserved101xx 0),
       some (.reserved11xxx 0)] := by
  decide

/-- A 5-bit word 3 is a phase word, and a number above the five bits is none. -/
theorem test_table_word_widths :
    decodeTableWord 5 3 = some (.reserved0001x 1) ∧ decodeTableWord 2 3 = some (.encrypt 0 0) ∧
      decodeTableWord 2 1 = none ∧ decodeTableWord 8 32 = none := by
  decide

/-! ### Datapath (95_test_vectors.md T1 to T4) -/

theorem test_keyexp_A5 : keyexp 0xA5 = 0xA55AA55AA5 := by decide
theorem test_ksel : RoundIndex.inOrder.map (ksel 0x0123456789ABCD) = [0x01, 0x23, 0x45, 0x67, 0x89, 0xAB] := by decide
theorem test_kfin : kfin 0x0123456789ABCD = 0xCD := by decide
theorem test_sbox_slice7 : sbox 0x8000000000 = 0xEDAD6B5AD6 := by decide
theorem test_sbox_mixed : sbox 0x0123456789 = 0xB3D97E7A9A := by decide
theorem test_rotr8 : rotr8 0x00DEADBEEF = 0xEF00DEADBE := by decide
theorem test_round : roundFn 0x00DEADBEEF 0xC0 = 0x5F827A255B := by decide

/-! ### Transactions (95_test_vectors.md T5) -/

theorem test_encrypt_E3 : encrypt 0x000000FFFFFFFFFF 0x00FFFFFFFFFFFFFF = .ok 0x3EEE77065D := by decide +kernel
theorem test_encrypt_E4 : encrypt 0x0000000123456789 0x000123456789ABCD = .ok 0x7F927C0406 := by decide +kernel
theorem test_encrypt_E5 : encrypt 0x0000001FFFFFFFFF 0x00C0FFEE15C0FFEE = .ok 0x6B62ECA82C := by decide +kernel
theorem test_encrypt_E6 : encrypt 0x000001FFFFFFFFFF 0x00C0FFEE15C0FFEE = .badLength := by decide
theorem test_encrypt_E8 : encrypt 0x0000000000000000 0x0100000000000000 = .badLength := by decide
theorem test_encrypt_E15 : encrypt 0x00000000DEADBEEF 0x0040FFEE15C0FFEE = .ok 0x4D4F47FF1F := by decide +kernel

/-! ### Micro-operations (95_test_vectors.md T6), one step each -/

theorem test_Q1_idle : nextOf (step (inPhase 0b00 0 [ready, demo])) = some (inPhase 0b00 0 [demo]) := by decide
theorem test_Q2_accept :
    nextOf (step { inPhase 0b00 0 [demo] with S := 7, K := 9, err := true }) = some (inPhase 0b01 1 []) := by decide
theorem test_Q3_accept_badLength :
    nextOf (step (inPhase 0b00 0 [tooWide])) = some { inPhase 0b10 0 [] with S := 0, K := 0, err := true } := by decide
theorem test_Q4_round1 :
    nextOf (step (inPhase 0b01 1 [demo])) = some { inPhase 0b01 2 [] with S := 0x5F827A255B } := by decide

/-- Rounds 2 to 6 of the trace of E1. -/
theorem test_round2 : nextOf (step { inPhase 0b01 2 [demo] with S := 0x5F827A255B }) =
    some { inPhase 0b01 3 [] with S := 0xAFBCC04E68 } := by decide
theorem test_round3 : nextOf (step { inPhase 0b01 3 [demo] with S := 0xAFBCC04E68 }) =
    some { inPhase 0b01 4 [] with S := 0x9525458A2E } := by decide
theorem test_round4 : nextOf (step { inPhase 0b01 4 [demo] with S := 0x9525458A2E }) =
    some { inPhase 0b01 5 [] with S := 0x0AEA648B40 } := by decide
theorem test_round5 : nextOf (step { inPhase 0b01 5 [demo] with S := 0x0AEA648B40 }) =
    some { inPhase 0b01 6 [] with S := 0xF6F378ED15 } := by decide
theorem test_round6 : nextOf (step { inPhase 0b01 6 [demo] with S := 0xF6F378ED15 }) =
    some { inPhase 0b01 7 [] with S := 0xFC04BD0FAB } := by decide
theorem test_Q5_final : nextOf (step { inPhase 0b01 7 [demo] with S := 0xFC04BD0FAB }) =
    some { inPhase 0b10 0 [] with S := 0x1215531E45 } := by decide
theorem test_Q6_hold : nextOf (step (inPhase 0b10 0 [demo])) = some (inPhase 0b10 0 []) := by decide
theorem test_Q7_release : nextOf (step (inPhase 0b10 0 [tooWide])) = some (inPhase 0b00 0 []) := by decide
theorem test_Q8_recover : nextOf (step (inPhase 0b11 0b010 [demo])) = some (inPhase 0b00 0 []) := by decide

/-- In the reserved phase word 00001 in_ready is 1 and in_valid is 1, and still nothing is accepted (R148). -/
theorem test_reserved_idle_accepts_nothing :
    nextOf (step (inPhase 0b00 0b001 [demo])) = some (inPhase 0b00 0 []) := by decide
theorem test_Q9_reset : nextOf (step (inPhase 0b01 0b100 [rstRow])) = some State.reset := by decide
theorem test_Q10_reset_is_no_release : (inPhase 0b10 0 [rstRow]).event = some .reset := by decide

/-- A placed word is the one that the step after reset runs. -/
theorem test_placed_round1 :
    nextOf (step (State.reset.withFetchWord 8 9)) =
      some { State.reset with st := 0b01, rnd := 2, S := 0x16B243D006 } := by decide
theorem test_placed_encrypt :
    nextOf (step (State.reset.withFetchWord 8 3)) = some { State.reset with st := 0b01, rnd := 1 } := by decide

/-! ### Witnesses: the hypotheses of the statements can be met -/

theorem witness_KeyExpanderLaws : keyexp 0x01 = keyexp 0x01 := rfl
theorem witness_Table : table 31 = table 31 := rfl
theorem witness_Sbox_local :
    slice 0x0800000000 7 ≠ slice 0 7 ∧ ∀ i : Fin 8, i ≠ 7 → slice 0x0800000000 i = slice 0 i := by decide
theorem witness_Sbox_same_slice : slice 0x0000000001 7 = slice 0 7 := by decide
theorem witness_Sbox_injective : sbox 0 = sbox 0 := rfl
theorem witness_Rotate_byte : 1 ≤ (1 : Fin 5).val ∧ 1 ≤ (4 : Fin 5).val := by decide
theorem witness_Rotate_period : (0 < 1 ∧ 1 < 5) ∧ (0 < 4 ∧ 4 < 5) := by decide
theorem witness_Round_injective : roundFn 0 0xFF = roundFn 0 0xFF := rfl
theorem witness_Badlen :
    (0x00FFFFFFFFFFFFFF : PortWord).toNat < 2 ^ 56 ∧ (0x000000FFFFFFFFFF : PortWord).toNat < 2 ^ 40 := by decide
theorem witness_Encrypt_badLength :
    2 ^ 40 ≤ (0x0000010000000000 : PortWord).toNat ∧ 2 ^ 56 ≤ (0x0100000000000000 : PortWord).toNat := by decide
theorem witness_Encrypt_ok :
    ∃ s0 s1 s2 s3 s4 s5 s6 : Block,
      (0x000000FFFFFFFFFF : PortWord).toNat < 2 ^ 40 ∧ (0x00FFFFFFFFFFFFFF : PortWord).toNat < 2 ^ 56 ∧
      s0.toNat = (0x000000FFFFFFFFFF : PortWord).toNat ∧
      s1 = roundFn s0 ((0x00FFFFFFFFFFFFFF#64 >>> 48).setWidth 8) ∧
      s2 = roundFn s1 ((0x00FFFFFFFFFFFFFF#64 >>> 40).setWidth 8) ∧
      s3 = roundFn s2 ((0x00FFFFFFFFFFFFFF#64 >>> 32).setWidth 8) ∧
      s4 = roundFn s3 ((0x00FFFFFFFFFFFFFF#64 >>> 24).setWidth 8) ∧
      s5 = roundFn s4 ((0x00FFFFFFFFFFFFFF#64 >>> 16).setWidth 8) ∧
      s6 = roundFn s5 ((0x00FFFFFFFFFFFFFF#64 >>> 8).setWidth 8) :=
  ⟨0xFFFFFFFFFF, _, _, _, _, _, _, by decide, by decide, by decide, rfl, rfl, rfl, rfl, rfl, rfl⟩

/-- E1 and E11 of 95_test_vectors.md: the keys differ in byte 0 only. -/
theorem witness_KeyByteZero :
    (0x00C0FFEE15C0FFEE#64 >>> 8 = 0x00C0FFEE15C0FF00#64 >>> 8) ∧
      encrypt 0xDEADBEEF 0x00C0FFEE15C0FFEE = .ok 0x1215531E45 ∧
      encrypt 0xDEADBEEF 0x00C0FFEE15C0FF00 = .ok 0xFCFBBDF0AB := by
  decide +kernel
theorem witness_Cipher_injective : cipher 0 0 = cipher 0 0 := rfl
theorem witness_Decode_word : decode (.phase 0b11111) = .ok (.reserved11xxx 0b111) := rfl
theorem witness_ResetGives : (inPhase 0b01 3 [rstRow]).pins.rst = true := by decide
theorem witness_ResetForAny :
    [rstRow, rstRow] ≠ [] ∧ (inPhase 0b10 0 [rstRow, rstRow, demo]).inputs = [rstRow, rstRow] ++ [demo] ∧
      ∀ p ∈ [rstRow, rstRow], p.rst = true := by decide
theorem witness_FirstOffer :
    (∀ w ∈ [ready, ready], w.rst = false ∧ w.inValid = false) ∧ demo.rst = false ∧ demo.inValid = true := by decide
theorem witness_IdleWait :
    (inPhase 0b00 0 [ready, demo]).ph = 0b00000#5 ∧ (inPhase 0b00 0 [ready, demo]).pins.inValid = false ∧
      (inPhase 0b00 0 [ready, demo]).inputs = [ready] ++ [demo] ∧
      ∀ w ∈ [ready], w.rst = false ∧ w.inValid = false := by decide
theorem witness_Accept : (inPhase 0b00 0 [demo]).pins.inValid = true := by decide
theorem witness_Rounds :
    (inPhase 0b01 1 []).ph = 0b01001#5 ∧ (inPhase 0b01 2 []).ph = 0b01010#5 ∧ (inPhase 0b01 3 []).ph = 0b01011#5 ∧
      (inPhase 0b01 4 []).ph = 0b01100#5 ∧ (inPhase 0b01 5 []).ph = 0b01101#5 ∧
      (inPhase 0b01 6 []).ph = 0b01110#5 ∧ (inPhase 0b01 6 []).st = 0b01#2 := by decide
theorem witness_Round1_example :
    (inPhase 0b01 1 []).ph = 0b01001#5 ∧ (inPhase 0b01 1 []).S = 0x00DEADBEEF ∧
      (inPhase 0b01 1 []).K = 0xC0FFEE15C0FFEE := by decide
theorem witness_Final_example :
    { inPhase 0b01 7 [] with S := 0xFC04BD0FAB }.S = 0xFC04BD0FAB ∧ (inPhase 0b01 7 []).K.extractLsb' 0 8 = 0xEE := by
  decide
theorem witness_Final_err : State.Inv (inPhase 0b01 7 []) ∧ (inPhase 0b01 7 []).ph = 0b01111#5 :=
  ⟨⟨by decide, by decide, by decide⟩, by decide⟩
theorem witness_Done :
    (inPhase 0b10 0 [ready]).pins.outReady = true ∧ (inPhase 0b10 0 [demo]).pins.outReady = false ∧
      (inPhase 0b10 0 [ready]).ph = 0b10000#5 ∧ (inPhase 0b10 0 [ready]).pins.rst = false := by decide
/-- A reserved phase word of every kind: st = 00 and rnd not 0, 01000, st = 10 and rnd not 0, and st = 11. -/
theorem witness_Reserved :
    ∀ x ∈ [(0b00#2, 1#3), (0b00, 7), (0b01, 0), (0b10, 1), (0b10, 7), (0b11, 0), (0b11, 7)],
      legalPhase (inPhase x.1 x.2 [demo]).ph = false ∧ (inPhase x.1 x.2 [demo]).pins.rst = false := by decide +kernel
theorem witness_Outputs : (inPhase 0b10 0 [demo]).regs = (inPhase 0b10 0 [ready]).regs := rfl
theorem witness_StepRuns :
    (inPhase 0b01 1 [demo]).pins.rst = false ∧ decode (inPhase 0b01 1 [demo]).fetch = .ok .round1 := ⟨rfl, rfl⟩
theorem witness_Fetch :
    ((inPhase 0b00 0 [demo]).ph = 0b00000#5 ∧ (inPhase 0b00 0 [demo]).pins.inValid = true) ∧
      ¬ ((inPhase 0b00 1 [demo]).ph = 0b00000#5 ∧ (inPhase 0b00 1 [demo]).pins.inValid = true) := by decide
theorem witness_Placed : decodeTableWord 8 24 = some (.reserved11xxx 0) := by decide
theorem witness_KeepsInvariant : State.Inv State.reset ∧ ∃ t, step { State.reset with inputs := [demo] } = .next t :=
  ⟨⟨by decide, by decide, by decide⟩, _, rfl⟩
theorem witness_Reachable : ∃ t, edges 2 { State.reset with inputs := [demo, demo] } = .next t := ⟨_, rfl⟩

theorem witness_InFlight_idle :
    State.InFlight (inPhase 0b00 0 [demo]) none ∧ (inPhase 0b00 0 [demo]).event = some (.accepted demo.inMsg demo.inKey) ∧
      ∃ t, step (inPhase 0b00 0 [demo]) = .next t :=
  ⟨.idle (by decide), by decide, _, rfl⟩
theorem witness_InFlight_first_round :
    State.InFlight (inPhase 0b01 1 [demo]) (some (demo.inMsg, demo.inKey)) ∧ (inPhase 0b01 1 [demo]).event = none ∧
      ∃ t, step (inPhase 0b01 1 [demo]) = .next t :=
  ⟨.run demo.inMsg demo.inKey 0 (by decide) (by decide) (by decide) (by decide) (by decide) (by decide) (by decide),
    by decide, _, rfl⟩
theorem witness_InFlight_final :
    State.InFlight { inPhase 0b01 7 [demo] with S := 0xFC04BD0FAB } (some (demo.inMsg, demo.inKey)) :=
  .run demo.inMsg demo.inKey 6 (by decide) (by decide) (by decide) (by decide) (by decide +kernel) (by decide) (by decide)
theorem witness_InFlight_done :
    State.InFlight { inPhase 0b10 0 [ready] with S := 0x1215531E45 } (some (demo.inMsg, demo.inKey)) ∧
      { inPhase 0b10 0 [ready] with S := 0x1215531E45 }.event = some (.released 0x1215531E45 false) :=
  ⟨.done demo.inMsg demo.inKey (by decide) (by decide +kernel), by decide⟩

/-- One state for each clause of the phase order, the last phase words of the range among them. -/
theorem witness_PhaseOrder :
    ∀ x ∈ [((0b00#2, 0#3), 0b00000#5), ((0b01, 1), 0b01001), ((0b01, 2), 0b01010), ((0b01, 3), 0b01011),
        ((0b01, 4), 0b01100), ((0b01, 5), 0b01101), ((0b01, 6), 0b01110), ((0b01, 7), 0b01111), ((0b10, 0), 0b10000)],
      (inPhase x.1.1 x.1.2 [demo]).ph = x.2 ∧ (inPhase x.1.1 x.1.2 [demo]).pins.rst = false ∧
        (nextOf (step (inPhase x.1.1 x.1.2 [demo]))).isSome = true := by
  decide +kernel

/-- K and err change at an ACCEPT that is BadLength, and S at the first and the last phase of RUN. -/
theorem witness_Writers :
    (∃ t, step (inPhase 0b00 0 [tooWide]) = .next t ∧ t.K ≠ (inPhase 0b00 0 [tooWide]).K ∧ t.err = true ∧
      (inPhase 0b00 0 [tooWide]).err = false) ∧
    (∃ t, step (inPhase 0b01 1 [demo]) = .next t ∧ t.S ≠ (inPhase 0b01 1 [demo]).S) ∧
    (∃ t, step (inPhase 0b01 7 [demo]) = .next t ∧ t.S ≠ (inPhase 0b01 7 [demo]).S) :=
  ⟨⟨_, rfl, by decide, by decide, by decide⟩, ⟨_, rfl, by decide⟩, ⟨_, rfl, by decide⟩⟩
theorem witness_InputsMatter :
    (inPhase 0b01 1 [demo]).regs = (inPhase 0b01 1 [tooWide]).regs ∧ (inPhase 0b01 1 [demo]).pins.rst = false ∧
      (inPhase 0b01 1 [tooWide]).pins.rst = false ∧ (inPhase 0b01 1 [demo]).ph ≠ 0b00000#5 ∧
      (inPhase 0b01 1 [demo]).ph ≠ 0b10000#5 := by decide
theorem witness_InputsMatter_sampled :
    (inPhase 0b00 0 [demo]).ph = 0b00000#5 ∧
      (inPhase 0b00 0 [demo]).pins.inValid = (inPhase 0b00 0 [{ demo with outReady := true }]).pins.inValid ∧
      (inPhase 0b10 0 [ready]).ph = 0b10000#5 ∧
      (inPhase 0b10 0 [ready]).pins.outReady = (inPhase 0b10 0 [tooWide]).pins.outReady := by decide
theorem witness_Held :
    (inPhase 0b10 0 [demo, demo, ready]).ph = 0b10000#5 ∧
      (inPhase 0b10 0 [demo, demo, ready]).inputs = [demo, demo] ++ [ready] ∧ holdsBack [demo, demo] :=
  ⟨by decide, rfl, by unfold holdsBack; decide⟩
/-- The state of a legal transaction: seven busy edges, one that holds the result back, one that takes it. -/
def legalRun : State := inPhase 0b00 0 (demo :: (List.replicate 7 ready ++ ([demo] ++ ready :: [demo])))
theorem witness_LegalTransaction :
    legalRun.ph = 0b00000#5 ∧ legalRun.inputs = demo :: (List.replicate 7 ready ++ ([demo] ++ ready :: [demo])) ∧
      legalRun.inputs = demo :: (List.replicate 6 ready ++ ready :: ([demo] ++ ready :: [demo])) ∧
      demo.rst = false ∧ demo.inValid = true ∧ badlen demo.inMsg demo.inKey = false ∧
      noReset (List.replicate 6 ready) ∧ noReset (List.replicate 7 ready) ∧
      (List.replicate 7 ready).length = latency demo.inMsg demo.inKey ∧ holdsBack [demo] ∧
      ready.rst = false ∧ ready.outReady = true :=
  ⟨by decide, rfl, rfl, rfl, rfl, by decide, by unfold noReset; decide, by unfold noReset; decide, by decide,
    by unfold holdsBack; decide, rfl, rfl⟩
/-- The state of a BadLength transaction: no busy edge. -/
def badRun : State := inPhase 0b00 0 [tooWide, ready, demo]
theorem witness_BadLength :
    badRun.ph = 0b00000#5 ∧ badRun.inputs = tooWide :: ready :: [demo] ∧
      badRun.inputs = tooWide :: ([] ++ ([] ++ ready :: [demo])) ∧ tooWide.rst = false ∧ tooWide.inValid = true ∧
      badlen tooWide.inMsg tooWide.inKey = true ∧ ([] : List Pins).length = latency tooWide.inMsg tooWide.inKey ∧
      ready.rst = false ∧ ready.outReady = true := by decide
/-- A reset while busy, and one while a BadLength result is held back. -/
theorem witness_Cancelled :
    ((inPhase 0b00 0 (demo :: ([ready, ready] ++ rstRow :: []))).ph = 0b00000#5 ∧ noReset [ready, ready] ∧
      holdsBack ([ready, ready].drop (latency demo.inMsg demo.inKey)) ∧ rstRow.rst = true) ∧
    ((inPhase 0b00 0 (tooWide :: ([demo] ++ rstRow :: []))).ph = 0b00000#5 ∧ noReset [demo] ∧
      holdsBack ([demo].drop (latency tooWide.inMsg tooWide.inKey))) :=
  ⟨⟨by decide, by unfold noReset; decide, by unfold holdsBack; decide, rfl⟩,
    ⟨by decide, by unfold noReset; decide, by unfold holdsBack; decide⟩⟩
/-- The demo offered and the output taken at every edge. -/
def eager : Pins := { demo with outReady := true }
theorem witness_BackToBack :
    ((inPhase 0b00 0 (eager :: (List.replicate 8 eager ++ eager :: []))).ph = 0b00000#5 ∧
      (List.replicate 8 eager).length = 8 ∧
      (∀ r ∈ eager :: eager :: List.replicate 8 eager, r.rst = false ∧ r.inValid = true ∧ r.outReady = true) ∧
      badlen eager.inMsg eager.inKey = false) ∧
    ((inPhase 0b00 0 [tooWide, tooWide, eager]).ph = 0b00000#5 ∧
      (∀ r ∈ [tooWide, tooWide, eager], r.rst = false ∧ r.inValid = true ∧ r.outReady = true) ∧
      badlen tooWide.inMsg tooWide.inKey = true) := by decide
theorem witness_NoTransactionObserves :
    (inPhase 0b00 0 [demo]).ph = 0b00000#5 ∧ { State.reset with inputs := [demo] }.ph = 0b00000#5 ∧
      (inPhase 0b00 0 [demo]).inputs = { State.reset with inputs := [demo] }.inputs ∧
      (inPhase 0b00 0 [demo]).freeDraws = { State.reset with inputs := [demo] }.freeDraws ∧
      (inPhase 0b00 0 [demo]).regs ≠ { State.reset with inputs := [demo] }.regs ∧
      (inPhase 0b00 0 [demo]).pins = { State.reset with inputs := [demo] }.pins ∧
      (inPhase 0b00 0 [demo]).pins.rst = false ∧ (inPhase 0b00 0 [demo]).pins.inValid = true := by decide

end Sys2Proof.Tests
end

/-! ## The registers and their values (10_state.md): reset, writers, and what a transaction leaves behind -/

namespace Sys2Proof.Machine

/-! ### Reset (R32) -/

/-- The outputs of a machine in IDLE (R146): it is ready and presents nothing. -/
theorem State.outputs_of_idle {s : State} (h : s.st = modeIdle) : s.inReady = true ∧ s.outValid = false := by
  constructor
  · simp [inReady, h]
  · simp [outValid, h]

/-- Settles O23: `resetEdge` gives the registers, and st = 00 gives the handshake outputs. -/
theorem resetGivesEveryRegisterItsValue : Obligations.ResetGivesEveryRegisterItsValue := by
  unfold Obligations.ResetGivesEveryRegisterItsValue
  constructor
  · intro s hr
    obtain ⟨hready, hvalid⟩ := State.outputs_of_idle (s := s.resetEdge.tick) (by simp)
    exact ⟨_, step_of_rst hr, by simp, by simp, by simp, by simp, by simp, hready, hvalid,
      by simp [State.outCt], by simp [State.outErr]⟩
  · obtain ⟨hready, hvalid⟩ := State.outputs_of_idle (s := State.reset) rfl
    exact ⟨rfl, rfl, rfl, rfl, rfl, hready, hvalid, rfl, rfl⟩

/-- Settles O40: after reset PH = 00000, whatever rows are laid down. -/
theorem nothingIsInFlightAfterReset : Obligations.NothingIsInFlightAfterReset := by
  intro rows n
  exact .idle (State.resetEdge_ph { State.reset with inputs := rows, freeDraws := n })

/-! ### The writers of S, K and err (R24, R25, R26) -/

/-- The phase words of the rounds lie below that of FINAL (R77). -/
theorem RoundPhase.mem_range {ph : PhaseWord} {i : RoundIndex} {n : Rnd} (h : RoundPhase ph i n) :
    0b01001#5 ≤ ph ∧ ph ≤ 0b01111#5 := by
  cases h <;> decide

/-- The edge loads a transaction's registers: it is a reset edge or an input transfer. -/
def State.Loads (s : State) : Prop :=
  s.pins.rst = true ∨ (s.ph = 0b00000#5 ∧ s.pins.inValid = true)

/-- An edge that loads nothing keeps K and err, and S too unless it is a round or FINAL. -/
theorem StepCase.loads_or_keeps {s t : State} {e : Option Event} (h : StepCase s t e) :
    s.Loads ∨ (t.K = s.K ∧ t.err = s.err ∧ (t.S = s.S ∨ (0b01001#5 ≤ s.ph ∧ s.ph ≤ 0b01111#5))) := by
  cases h with
  | reset hr => exact .inl (.inl hr)
  | accept _ hp hv => exact .inl (.inr ⟨hp, hv⟩)
  | round i n _ hp => exact .inr ⟨by simp [State.roundEdge_eq], by simp [State.roundEdge_eq], .inr hp.mem_range⟩
  | final _ hp =>
    refine .inr ⟨by simp [State.finalEdge_eq], by simp [State.finalEdge_eq], .inr ?_⟩
    rw [hp]; decide
  | wait => exact .inr (by simp)
  | hold => exact .inr (by simp)
  | release => exact .inr (by simp [State.release_eq])
  | reserved => exact .inr (by simp [State.recover_eq])

/-- An input transfer sets err exactly when it is BadLength (R142). -/
@[simp] theorem State.accept_err (s : State) (m k : PortWord) : (s.accept m k).err = badlen m k := by
  rcases s.accept_cases m k with ⟨hb, heq⟩ | ⟨hb, heq⟩ <;> rw [heq, hb]

/-- Only an input transfer that is BadLength sets err (R160). -/
theorem StepCase.badlen_of_err_set {s t : State} {e : Option Event} (h : StepCase s t e) (ht : t.err = true)
    (hs : s.err = false) :
    s.ph = 0b00000#5 ∧ s.pins.inValid = true ∧ badlen s.pins.inMsg s.pins.inKey = true := by
  cases h with
  | accept _ hp hv => exact ⟨hp, hv, by simpa using ht⟩
  | reset => simp at ht
  | wait => simp [hs] at ht
  | hold => simp [hs] at ht
  | round => simp [State.roundEdge_eq, hs] at ht
  | final => simp [State.finalEdge_eq, hs] at ht
  | release => simp [State.release_eq, hs] at ht
  | reserved => simp [State.recover_eq, hs] at ht

/-- Settles O44: every edge is a `StepCase`, and each of those loads the registers or keeps them. -/
theorem registersHaveOnlyTheirWriters : Obligations.RegistersHaveOnlyTheirWriters := by
  intro s t hstep
  have hcase := step_case hstep
  rcases hcase.loads_or_keeps with hloads | ⟨hK, herr, hS⟩
  · exact ⟨fun _ => hloads, fun _ => hloads, fun _ => hloads.imp_right .inl, hcase.badlen_of_err_set⟩
  · exact ⟨fun h => absurd hK h, fun h => absurd herr h, fun h => .inr (.inr (hS.resolve_left h)),
      hcase.badlen_of_err_set⟩

/-! ### Nothing of an earlier transaction is left or seen (R31) -/

/-- What an input transfer writes depends on the input alone (R142). -/
theorem State.accept_regs (s : State) (m k : PortWord) :
    (s.accept m k).regs =
      if badlen m k then (modeDone, 0, 0, 0, true) else (modeRun, 1, msgBlock m, keyField k, false) := by
  rcases s.accept_cases m k with ⟨hb, heq⟩ | ⟨hb, heq⟩ <;> rw [heq, hb] <;> rfl

@[simp] theorem State.tick_regs (s : State) : s.tick.regs = s.regs := by
  simp [regs]

/-- Settles O53: both edges are input transfers, of the same input. -/
theorem acceptOverwritesEveryRegister : Obligations.AcceptOverwritesEveryRegister := by
  intro s s' hp hp' hpins hr hv
  refine ⟨_, _, step_accept hr hp hv, step_accept (hpins ▸ hr) hp' (hpins ▸ hv), ?_⟩
  simp [State.accept_regs, hpins]

/-- Registers and environment together are the whole state. -/
theorem State.eq_of_regs_eq {s s' : State} (hregs : s.regs = s'.regs) (hin : s.inputs = s'.inputs)
    (hfree : s.freeDraws = s'.freeDraws) : s = s' := by
  cases s; cases s'
  simp_all [regs]

/-- Two machines wait in IDLE before the same host, whatever S, K and err hold in each. -/
structure WaitAlike (s s' : State) : Prop where
  ph        : s.ph = 0b00000#5
  ph'       : s'.ph = 0b00000#5
  inputs    : s.inputs = s'.inputs
  freeDraws : s.freeDraws = s'.freeDraws

namespace WaitAlike

variable {s s' : State}

theorem pins (h : WaitAlike s s') : s.pins = s'.pins := by
  simp only [State.pins, h.inputs, h.freeDraws]

theorem tick (h : WaitAlike s s') : WaitAlike s.tick s'.tick where
  ph := by rw [State.tick_ph, h.ph]
  ph' := by rw [State.tick_ph, h.ph']
  inputs := by rw [State.tick_inputs, State.tick_inputs, h.inputs]
  freeDraws := by rw [State.tick_freeDraws, State.tick_freeDraws, h.inputs, h.freeDraws]

theorem resetEdge_eq (h : WaitAlike s s') : s.resetEdge = s'.resetEdge :=
  State.eq_of_regs_eq rfl h.inputs h.freeDraws

theorem accept_eq (h : WaitAlike s s') (m k : PortWord) : s.accept m k = s'.accept m k :=
  State.eq_of_regs_eq (by rw [State.accept_regs, State.accept_regs]) (by simp [h.inputs]) (by simp [h.freeDraws])

end WaitAlike

/-- The host sees a machine in IDLE as ready, with no output. -/
theorem State.visible_of_ph_zero {s : State} (h : s.ph = 0b00000#5) : s.visible = (true, none) := by
  obtain ⟨hready, hvalid⟩ := outputs_of_idle ((s.ph_eq_iff 0#2 0#3).1 h).1
  simp [visible, hready, hvalid]

/-- One edge: the two machines go on waiting alike, or a reset or an input transfer has made them equal. -/
theorem WaitAlike.step {s s' : State} (h : WaitAlike s s') :
    ∃ t t', Machine.step s = .next t ∧ Machine.step s' = .next t' ∧ (t = t' ∨ WaitAlike t t') := by
  have hpins := h.pins
  cases hr : s.pins.rst with
  | true => exact ⟨_, _, step_of_rst hr, step_of_rst (hpins ▸ hr), .inl (by rw [h.resetEdge_eq])⟩
  | false =>
    cases hv : s.pins.inValid with
    | true =>
      exact ⟨_, _, step_accept hr h.ph hv, step_accept (hpins ▸ hr) h.ph' (hpins ▸ hv),
        .inl (by rw [hpins, h.accept_eq])⟩
    | false =>
      exact ⟨_, _, step_wait hr h.ph hv, step_wait (hpins ▸ hr) h.ph' (hpins ▸ hv), .inr h.tick⟩

theorem WaitAlike.visibleRun_eq {s s' : State} (h : WaitAlike s s') (n : Nat) : visibleRun n s = visibleRun n s' := by
  induction n generalizing s s' with
  | zero => rfl
  | succ n ih =>
    obtain ⟨t, t', ht, ht', hnext⟩ := h.step
    rw [visibleRun_succ_of_step ht, visibleRun_succ_of_step ht', State.visible_of_ph_zero h.ph,
      State.visible_of_ph_zero h.ph']
    rcases hnext with rfl | hnext
    · rfl
    · rw [ih hnext]

/-- Settles O52, by induction on the edges: waiting alike lasts until the machines are equal. -/
theorem noTransactionObservesAnEarlierOne : Obligations.NoTransactionObservesAnEarlierOne :=
  fun _ _ n hp hp' hin hfree => WaitAlike.visibleRun_eq ⟨hp, hp', hin, hfree⟩ n

end Sys2Proof.Machine

/-! ## The input in flight (45_sequencer.md R149 d): every edge keeps it, and every run serves its inputs in order -/

namespace Sys2Proof.Machine

/-! ### The rounds as numbers (R124) -/

theorem roundIndex_toNat_le_six (i : RoundIndex) : i.toNat ≤ 6 := by
  cases i <;> decide

/-- In the phase of round i the counter is i (R143). -/
theorem RoundPhase.rnd_eq {ph : PhaseWord} {i : RoundIndex} {n : Rnd} (h : RoundPhase ph i n) :
    n = BitVec.ofNat 3 i.toNat := by
  cases h <;> rfl

/-- The recurrence of R124: S_i is round i of S_(i-1). -/
theorem stateAfter_succ {j : Nat} {i : RoundIndex} (h : j + 1 = i.toNat) (m : Block) (key : Key) :
    stateAfter (j + 1) m key = roundFn (stateAfter j m key) (ksel key i) := by
  obtain rfl : j = i.toNat - 1 := by omega
  cases i <;> rfl

/-- The counter j + 1 of a state in flight tells its round, FINAL's 7 among them. -/
theorem round_eq_of_rnd_eq {j n : Nat} (hj : j ≤ Config.rounds) (hn : n < 8)
    (h : BitVec.ofNat 3 (j + 1) = BitVec.ofNat 3 n) : j + 1 = n := by
  have hj' : j + 1 < 8 := Nat.lt_succ_of_le (Nat.succ_le_succ hj)
  have hnat := congrArg BitVec.toNat h
  simpa [BitVec.toNat_ofNat, Nat.mod_eq_of_lt hj', Nat.mod_eq_of_lt hn] using hnat

/-! ### The phase words IDLE, FINAL and DONE, and those of RUN, by their fields (R76, R77) -/

theorem State.ph_eq_idle_iff {s : State} : s.ph = 0b00000#5 ↔ s.st = modeIdle ∧ s.rnd = 0 := s.ph_eq_iff 0#2 0#3

theorem State.ph_eq_final_iff {s : State} : s.ph = 0b01111#5 ↔ s.st = modeRun ∧ s.rnd = 7 := s.ph_eq_iff 1#2 7#3

theorem State.ph_eq_done_iff {s : State} : s.ph = 0b10000#5 ↔ s.st = modeDone ∧ s.rnd = 0 := s.ph_eq_iff 2#2 0#3

/-- The counter values 1 to 7 are those of the rounds and FINAL. -/
theorem legalPhase_run : ∀ j ≤ Config.rounds, legalPhase (modeRun ++ BitVec.ofNat 3 (j + 1)) = true := by
  decide

/-! ### What an input in flight says of its phase -/

namespace State.InFlight

variable {s : State} {p : Option (PortWord × PortWord)}

/-- An input in flight is in a phase that a transaction visits (R149 a). -/
theorem legalPhase_ph (h : s.InFlight p) : legalPhase s.ph = true := by
  cases h with
  | idle hph => rw [hph]; rfl
  | done _ _ hph => rw [hph]; rfl
  | run m k j hj _ hst hrnd =>
    rw [(s.ph_eq_iff modeRun _).2 ⟨hst, hrnd⟩]
    exact legalPhase_run j hj

/-- In IDLE nothing is in flight. -/
theorem eq_none (h : s.InFlight p) (hp : s.ph = 0b00000#5) : p = none := by
  obtain ⟨hidle, -⟩ := State.ph_eq_idle_iff.1 hp
  cases h with
  | idle => rfl
  | run _ _ _ _ _ hst => exact absurd (hst.symm.trans hidle) (by decide)
  | done _ _ hph => exact absurd (hph.symm.trans hp) (by decide)

/-! ### What each operation leaves in flight -/

theorem tick (h : s.InFlight p) : s.tick.InFlight p := by
  cases h with
  | idle hph => exact .idle (by simpa using hph)
  | run m k j hj hfits hst hrnd hS hK herr =>
    exact .run m k j hj hfits (by simpa using hst) (by simpa using hrnd) (by simpa using hS) (by simpa using hK)
      (by simpa using herr)
  | done m k hph hout => exact .done m k (by simpa using hph) (by simpa using hout)

theorem resetEdge (s : State) : s.resetEdge.InFlight none := .idle s.resetEdge_ph

theorem release (s : State) : s.release.InFlight none := .idle (State.ph_eq_idle_iff.2 ⟨rfl, rfl⟩)

/-- ACCEPT puts the input in flight: before its first round, or presented as BadLength (R142). -/
theorem accept (s : State) (m k : PortWord) : (s.accept m k).InFlight (some (m, k)) := by
  rcases s.accept_cases m k with ⟨hb, heq⟩ | ⟨hb, heq⟩ <;> rw [heq]
  · exact .done m k (State.ph_eq_done_iff.2 ⟨rfl, rfl⟩) (by simp [encrypt, hb, Result.onPorts])
  · exact .run m k 0 (Nat.zero_le _) hb rfl rfl rfl rfl rfl

/-- ROUNDi takes the input in flight from S_(i-1) to S_i (R143). -/
theorem roundEdge {i : RoundIndex} {n : Rnd} (h : s.InFlight p) (hp : RoundPhase s.ph i n) :
    (s.roundEdge i).InFlight p := by
  cases h with
  | idle hph => exact absurd hph hp.ne_idle
  | done _ _ hph => exact absurd hph hp.ne_done
  | run m k j hj hfits hst hrnd hS hK herr =>
    obtain ⟨-, hn⟩ := (s.ph_eq_iff _ _).1 hp.ph_eq
    have hi := roundIndex_toNat_le_six i
    have hround : j + 1 = i.toNat := round_eq_of_rnd_eq hj (by omega) (hrnd.symm.trans (hn.trans hp.rnd_eq))
    refine .run m k (j + 1) (hround ▸ hi) hfits hst ?_ ?_ hK herr
    · simp [State.roundEdge_eq, hrnd, BitVec.ofNat_add]
    · rw [State.roundEdge_eq, hS, hK, stateAfter_succ hround]

/-- FINAL presents ENCRYPT's result for the input in flight (R144). -/
theorem finalEdge (h : s.InFlight p) (hp : s.ph = 0b01111#5) : s.finalEdge.InFlight p := by
  cases h with
  | idle hph => exact absurd (hph.symm.trans hp) (by decide)
  | done _ _ hph => exact absurd (hph.symm.trans hp) (by decide)
  | run m k j hj hfits hst hrnd hS hK herr =>
    obtain ⟨-, hlast⟩ := State.ph_eq_final_iff.1 hp
    have hseven : j + 1 = 7 := round_eq_of_rnd_eq hj (by decide) (hrnd.symm.trans hlast)
    obtain rfl : j = Config.rounds := Nat.succ.inj hseven
    refine .done m k (State.ph_eq_done_iff.2 ⟨rfl, rfl⟩) ?_
    simp [State.finalEdge_eq, encrypt, hfits, Result.onPorts, cipher, hS, hK, herr]

/-- What DONE releases is what a correct server with `p` in its place shows (R131, R145). -/
theorem serveEvent_release (h : s.InFlight p) (hp : s.ph = 0b10000#5) :
    serveEvent p (.released s.S s.err) = some none := by
  obtain ⟨hdone, -⟩ := State.ph_eq_done_iff.1 hp
  cases h with
  | idle hph => exact absurd (hph.symm.trans hp) (by decide)
  | run _ _ _ _ _ hst => exact absurd (hst.symm.trans hdone) (by decide)
  | done m k _ hout => exact serveEvent_released hout

end State.InFlight

/-! ### One edge at the server of Safety.lean -/

/-- `serveEvent` for an edge, which may have no event: such an edge leaves the server as it is. -/
def serveEdge (p : Option (PortWord × PortWord)) : Option Event → Option (Option (PortWord × PortWord))
  | none => some p
  | some e => serveEvent p e

/-- The server's run over an edge's event and the events after it. -/
theorem served_append_of_serveEdge {p q : Option (PortWord × PortWord)} {e : Option Event}
    (h : serveEdge p e = some q) (es : List Event) : served p (e.toList ++ es) = served q es := by
  cases e with
  | none => cases h; rfl
  | some e => exact served_cons h es

/-- The simulation: an edge of the machine is an edge of the server. -/
theorem StepCase.inFlight {s t : State} {e : Option Event} {p : Option (PortWord × PortWord)} (h : StepCase s t e)
    (hf : s.InFlight p) : ∃ q, serveEdge p e = some q ∧ t.InFlight q := by
  cases h with
  | reset => exact ⟨none, serveEvent_reset p, (State.InFlight.resetEdge s).tick⟩
  | wait => exact ⟨p, rfl, hf.tick⟩
  | accept _ hp =>
    obtain rfl := hf.eq_none hp
    exact ⟨_, serveEvent_accepted _ _, (State.InFlight.accept s _ _).tick⟩
  | round i n _ hp => exact ⟨p, rfl, (hf.roundEdge hp).tick⟩
  | final _ hp => exact ⟨p, rfl, (hf.finalEdge hp).tick⟩
  | release _ hp => exact ⟨none, hf.serveEvent_release hp, (State.InFlight.release s).tick⟩
  | hold => exact ⟨p, rfl, hf.tick⟩
  | reserved _ hl => exact absurd hf.legalPhase_ph (by simp [hl])

/-- Settles O41: `StepCase.inFlight` at the edge's event. -/
theorem everyEdgeKeepsTheInputInFlight : Obligations.EveryEdgeKeepsTheInputInFlight := by
  intro s t p hf hstep
  obtain ⟨q, hserve, hq⟩ := (step_case hstep).inFlight hf
  constructor
  · intro hnone
    rw [hnone] at hserve
    cases hserve
    exact hq
  · intro e he
    rw [he] at hserve
    exact ⟨q, hserve, hq⟩

/-! ### Every run -/

/-- Every edge of every state answers a next state (R140). -/
theorem step_exists_next (s : State) : ∃ t, step s = .next t := by
  cases hr : s.pins.rst with
  | true => exact ⟨_, step_of_rst hr⟩
  | false =>
    by_cases hoffer : s.ph = 0b00000#5 ∧ s.pins.inValid = true
    · exact ⟨_, step_accept hr hoffer.1 hoffer.2⟩
    · obtain ⟨i, hi⟩ := decodePhase_exists s.ph
      obtain ⟨u, hu, -⟩ := exec_next i s
      have hwait : s.ph = 0b00000#5 → s.pins.inValid = false := by simpa using hoffer
      exact ⟨u.tick, by rw [step_phase hr hwait hi, hu]; rfl⟩

/-- The events of a run are those of a correct server that starts with what is in flight. -/
theorem State.InFlight.served_events {s : State} {p : Option (PortWord × PortWord)} (h : s.InFlight p) (n : Nat) :
    served p (events n s) = true := by
  induction n generalizing s p with
  | zero => rfl
  | succ n ih =>
    obtain ⟨t, ht⟩ := step_exists_next s
    obtain ⟨q, hserve, hq⟩ := (step_case ht).inFlight h
    rw [events_succ_of_step ht, served_append_of_serveEdge hserve]
    exact ih hq

/-- Settles O51: after reset nothing is in flight, and the server's run follows the machine's from there. -/
theorem everyRunServesItsInputsInOrder : Obligations.EveryRunServesItsInputsInOrder :=
  fun rows d n => (nothingIsInFlightAfterReset rows d).served_events n

end Sys2Proof.Machine

/-! ## The encoding (30_encoding.md): the phase word map, the round trip, and what an edge decodes -/

namespace Sys2Proof

/-! ### The row behind a decoded phase word (R77, R82) -/

/-- Whatever the decoder reads from a phase word, it reads through a row of the map that selects the word. -/
theorem exists_row_of_decodePhase {ph : PhaseWord} {i : Instr} (h : decodePhase ph = .ok i) :
    ∃ r ∈ phaseRows, r.selects ph = true ∧ r.instr ph = i := by
  unfold decodePhase at h
  split at h
  case h_1 r hfind =>
    have hsel : r.selects ph = true := List.find?_some (p := fun r : PhaseRow => r.selects ph) hfind
    exact ⟨r, List.mem_of_find?_eq_some hfind, hsel, Except.ok.inj h⟩
  case h_2 => cases h

/-- The operand of a row is the word's don't-care bits: with the row's fixed bits it is the word again. -/
theorem encode_instr_of_selects :
    ∀ r ∈ phaseRows, ∀ ph : PhaseWord, r.selects ph = true → encode (r.instr ph) = .phase ph := by
  decide

/-- A row's instructions carry the row's mnemonic. -/
theorem mnemonic_instr_of_mem_phaseRows :
    ∀ r ∈ phaseRows, ∀ ph : PhaseWord, r.mnemonic = (r.instr ph).mnemonic := by
  simp [phaseRows, liveRows, reservedRows, Instr.mnemonic]

/-- Settles O22: the row is the one that the decoder went through. -/
theorem decodedPhaseMatchesItsTableRow : Obligations.DecodedPhaseMatchesItsTableRow := by
  intro ph i h
  obtain ⟨r, hr, hsel, rfl⟩ := exists_row_of_decodePhase h
  exact ⟨r, hr, mnemonic_instr_of_mem_phaseRows r hr ph, eq_of_beq hsel⟩

/-! ### The round trip -/

/-- An instruction is read from a handshake word exactly when it is 11, and then it is the transfer of the ports. -/
theorem decode_transfer_eq_ok_iff (hs : HandshakeWord) (m k : PortWord) (i : Instr) :
    decode (.transfer hs m k) = .ok i ↔ hs = 0b11#2 ∧ .encrypt m k = i := by
  by_cases h : hs = 0b11#2 <;> simp [decode, h]

theorem decode_encode (i : Instr) : decode (encode i) = .ok i := by
  cases i with
  | reserved0001x x => revert x; decide
  | reserved001xx x => revert x; decide
  | reserved1001x x => revert x; decide
  | reserved101xx x => revert x; decide
  | reserved11xxx x => revert x; decide
  | _ => rfl

theorem encode_of_decode {f : FetchWord} {i : Instr} (h : decode f = .ok i) : encode i = f := by
  cases f with
  | transfer hs m k =>
    obtain ⟨rfl, rfl⟩ := (decode_transfer_eq_ok_iff hs m k i).1 h
    rfl
  | phase ph =>
    obtain ⟨r, hr, hsel, rfl⟩ := exists_row_of_decodePhase h
    exact encode_instr_of_selects r hr ph hsel

/-- Settles O21: one way by the constructors of the instruction, the other by the row that the decoder went through. -/
theorem decodeAndEncodeAreInverse : Obligations.DecodeAndEncodeAreInverse :=
  ⟨decode_encode, fun _ _ => encode_of_decode⟩

/-! ### The phase word map has no gap and no overlap -/

theorem length_filter_selects_eq_one : ∀ ph : PhaseWord, (phaseRows.filter (·.selects ph)).length = 1 := by
  decide

/-- Settles O20: the map word by word, the handshake words by `decode_transfer_eq_ok_iff`. -/
theorem phaseMapHasNoGapAndNoOverlap : Obligations.PhaseMapHasNoGapAndNoOverlap := by
  refine ⟨length_filter_selects_eq_one, decodePhase_exists, fun hs m k => ?_⟩
  simp [decode_transfer_eq_ok_iff]

/-- Settles O19: the decoder's equation for each of the rows. -/
theorem writtenOutWordsDecode : Obligations.WrittenOutWordsDecode :=
  ⟨decode_transfer 5 7, decodePhase_idle, decodePhase_round1, decodePhase_round6, decodePhase_final, decodePhase_done,
    decode_encode (.reserved11xxx 0b010)⟩

/-! ### Legal input transfers (R79) -/

/-- The bits of a word from bit n up are zero exactly when its value is below 2 ^ n. -/
theorem extractLsb'_high_eq_zero_iff {n w : Nat} (x : BitVec (n + w)) : x.extractLsb' n w = 0 ↔ x.toNat < 2 ^ n := by
  have hhigh : x.toNat / 2 ^ n < 2 ^ w := Nat.div_lt_of_lt_mul (by rw [← Nat.pow_add]; exact x.isLt)
  rw [← BitVec.toNat_inj, BitVec.extractLsb'_toNat, Nat.shiftRight_eq_div_pow, Nat.mod_eq_of_lt hhigh]
  simp [Nat.div_eq_zero_iff]

theorem msgFits_eq_decide (m : PortWord) : msgFits m = decide (m.toNat < 2 ^ 40) := by
  rw [msgFits, beq_eq_decide, decide_eq_decide]
  exact extractLsb'_high_eq_zero_iff (n := 40) (w := 24) m

theorem keyFits_eq_decide (k : PortWord) : keyFits k = decide (k.toNat < 2 ^ 56) := by
  rw [keyFits, beq_eq_decide, decide_eq_decide]
  exact extractLsb'_high_eq_zero_iff (n := 56) (w := 8) k

/-- Settles O14: MSG_HI and KEY_HI are zero exactly when the two comparisons of BADLEN fail. -/
theorem wellFormedTransferIsNotBadlen : Obligations.WellFormedTransferIsNotBadlen := by
  intro m k
  simp [Instr.wellFormed, msgFits_eq_decide, keyFits_eq_decide, Machine.badlen, ← decide_not]

end Sys2Proof

namespace Sys2Proof.Machine

/-! ### What an edge decodes and runs (R76, R140) -/

/-- Settles O33: `step` looks at rst first, and then at what the decoder reads. -/
theorem stepRunsTheDecodedInstruction : Obligations.StepRunsTheDecodedInstruction := by
  intro s i hr hi
  simp [step, hr, hi]

/-- Settles O34: `hs` is 11 exactly when the host offers and the machine is ready, as it is in PH = 00000. -/
theorem fetchReadsPhaseOrTransfer : Obligations.FetchReadsPhaseOrTransfer := by
  constructor
  · intro s hp hv
    rw [State.fetch_of_offer hp hv, decode_transfer]
  · intro s hno
    exact State.fetch_of_no_offer (by simpa using hno)

/-- Settles O35: every phase word decodes, and `exec` answers a next state. -/
theorem everyEdgeAnswersANextState : Obligations.EveryEdgeAnswersANextState :=
  step_exists_next

/-! ### Placing a word (notes/assumptions/4.md) -/

/-- A placed word that is an instruction is what the next edge decodes. -/
theorem State.fetch_place {f : FetchWord} {i : Instr} (s : State) (h : decode f = .ok i) : (s.place f).fetch = f := by
  cases f with
  | transfer hs m k =>
    obtain ⟨rfl, -⟩ := (decode_transfer_eq_ok_iff hs m k i).1 h
    exact fetch_of_offer (State.ph_eq_idle_iff.2 ⟨rfl, rfl⟩) rfl
  | phase ph =>
    have hph : (s.place (.phase ph)).ph = ph := BitVec.extractLsb'_append_extractLsb'
    rw [fetch_of_no_offer, hph]
    intro h0
    rw [hph] at h0
    simp [place, h0]

/-- Placing lays down the row of the next edge, with rst low, and leaves S, K, err and the later rows alone. -/
theorem State.place_frame (s : State) (f : FetchWord) :
    (s.place f).pins.rst = false ∧ (s.place f).S = s.S ∧ (s.place f).K = s.K ∧ (s.place f).err = s.err ∧
      (s.place f).inputs.tail = s.inputs.tail := by
  cases f <;> simp [place]

/-- The table's word of an instruction is a word that the decoder reads. -/
theorem exists_tableWord_of_decodeTableWord {nbits w : Nat} {i : Instr} (h : decodeTableWord nbits w = some i) :
    ∃ f, tableWord nbits w = some f ∧ decode f = .ok i := by
  unfold decodeTableWord at h
  split at h
  case h_1 => cases h
  case h_2 f hf =>
    split at h
    case h_1 j hj => exact ⟨f, hf, hj.trans (congrArg _ (Option.some.inj h))⟩
    case h_2 => cases h

/-- Settles O37: the word is some fetch word, and `place` makes it what the next edge decodes. -/
theorem placedTableWordRunsNext : Obligations.PlacedTableWordRunsNext := by
  intro s nbits w i h
  obtain ⟨f, hf, hi⟩ := exists_tableWord_of_decodeTableWord h
  have hplace : s.withFetchWord nbits w = s.place f := by simp [State.withFetchWord, hf]
  obtain ⟨hrst, hS, hK, herr, htail⟩ := s.place_frame f
  rw [hplace, State.fetch_place s hi]
  exact ⟨hrst, hi, hS, hK, herr, htail⟩

end Sys2Proof.Machine

/-! ## The key expander and the key byte selectors (41_key_expander.md) -/

namespace Sys2Proof.Machine

/-! ### KEYEXP (R90, R91) -/

/-- Byte (4 - i) of the mask: the key byte for even i, its complement for odd i (R90). -/
theorem keyexp_byte (kb : KeyByte) (i : Fin 5) :
    (keyexp kb).extractLsb' (8 * (4 - i.val)) 8 = if i.val % 2 = 0 then kb else ~~~kb := by
  change (kb ++ ~~~kb ++ kb ++ ~~~kb ++ kb).extractLsb' (8 * (4 - i.val)) 8 = _
  -- Drop the bytes below the one read, then those above it.
  fin_cases i <;>
    simp (disch := decide) only [BitVec.extractLsb'_append_eq_of_le, BitVec.extractLsb'_append_eq_of_add_le] <;>
    exact BitVec.extractLsb'_eq_self

/-- Byte 4 of the mask is the key byte itself. -/
theorem keyexp_top_byte (kb : KeyByte) : (keyexp kb).extractLsb' 32 8 = kb :=
  keyexp_byte kb 0

theorem keyexp_injective : Function.Injective keyexp := by
  intro a b h
  rw [← keyexp_top_byte a, h, keyexp_top_byte]

/-- A difference of two key bytes shows in all five bytes of the mask. -/
theorem keyexp_xor (a d : KeyByte) : keyexp (a ^^^ d) = keyexp a ^^^ (d ++ d ++ d ++ d ++ d) := by
  have hxor : (a ++ ~~~a ++ a ++ ~~~a ++ a) ^^^ (d ++ d ++ d ++ d ++ d) = keyexp (a ^^^ d) := by
    simp only [keyexp, BitVec.xor_append, BitVec.not_xor_left]
  exact hxor.symm

/-- Settles O1: the mask byte by byte; XOR with 0xFF is the complement. -/
theorem keyExpanderAlternatesByteAndComplement : Obligations.KeyExpanderAlternatesByteAndComplement := by
  refine ⟨fun kb i => ?_, by decide, by decide, by decide⟩
  have hnot : kb ^^^ 0xFF#8 = ~~~kb := BitVec.xor_allOnes
  rw [keyexp_byte, hnot]

theorem xor_xor_cancel_left {w : Nat} (x y : BitVec w) : x ^^^ (x ^^^ y) = y := by
  rw [← BitVec.xor_assoc, BitVec.xor_self, BitVec.zero_xor]

/-- Settles O2: (a), (b) and (d) are `keyexp_xor` at the differences kb, 0xFF and a XOR b; (c) is the top byte. -/
theorem keyExpanderLaws : Obligations.KeyExpanderLaws := by
  refine ⟨fun kb => ?_, fun kb => keyexp_xor kb 0xFF, keyexp_top_byte, fun _ _ h => keyexp_injective h, fun a b => ?_⟩
  · rw [← keyexp_xor]
    exact congrArg keyexp BitVec.zero_xor.symm
  · have hb := keyexp_xor a (a ^^^ b)
    rw [xor_xor_cancel_left] at hb
    rw [hb, xor_xor_cancel_left]

/-! ### KSEL and KFIN (R92, R93, R94) -/

/-- A byte field as the shift and mask of the spec's pseudocode. -/
theorem toNat_byte_eq_shiftRight_and (key : Key) (n : Nat) :
    (key.extractLsb' n 8).toNat = (key.toNat >>> n) &&& 0xFF := by
  rw [BitVec.extractLsb'_toNat, ← Nat.and_two_pow_sub_one_eq_mod]

/-- Settles O3: the selectors are byte fields, and a byte field is a shift and a mask. -/
theorem keyByteSelectorsReadTheirFields : Obligations.KeyByteSelectorsReadTheirFields :=
  ⟨fun key i => toNat_byte_eq_shiftRight_and key (8 * (7 - i.toNat)), fun key => toNat_byte_eq_shiftRight_and key 0,
    fun _ => ⟨rfl, rfl, rfl, rfl, rfl, rfl, rfl⟩, by decide, by decide, by decide⟩

/-- The bits of the key from bit n up, followed by the byte just below them. -/
theorem high_append_byte (key : Key) (n len : Nat) :
    key.extractLsb' (n + 8) len ++ key.extractLsb' n 8 = key.extractLsb' n (len + 8) :=
  BitVec.extractLsb'_append_extractLsb'_eq_extractLsb' rfl

/-- Settles O4: from KSEL of round 1 down to KFIN, each selected byte stands just below those before it. -/
theorem selectedKeyBytesAreTheWholeKey : Obligations.SelectedKeyBytesAreTheWholeKey := by
  intro key
  have hkey : key.extractLsb' 48 8 ++ key.extractLsb' 40 8 ++ key.extractLsb' 32 8 ++ key.extractLsb' 24 8 ++
      key.extractLsb' 16 8 ++ key.extractLsb' 8 8 ++ key.extractLsb' 0 8 =
      key.extractLsb' 0 (8 + 8 + 8 + 8 + 8 + 8 + 8) := by
    rw [high_append_byte key 40, high_append_byte key 32, high_append_byte key 24, high_append_byte key 16,
      high_append_byte key 8, high_append_byte key 0]
  exact hkey.trans BitVec.extractLsb'_eq_self

end Sys2Proof.Machine

/-! ## The substitution box (42_substitution_box.md), and the permutation that it makes of the cipher -/

namespace Sys2Proof.Machine

/-- There are finitely many words of a width, so a function on them is one to one exactly when it is onto. -/
theorem injective_iff_surjective {w : Nat} {f : BitVec w → BitVec w} : Function.Injective f ↔ Function.Surjective f :=
  have : Finite (BitVec w) := Finite.of_injective _ BitVec.toFin_injective
  Finite.injective_iff_surjective

/-! ### TABLE (R100, R104) -/

/-- The inverse list of R104: at place u, the index whose entry in TABLE is u. -/
def tableInverse : List Slice :=
  [1, 31, 22, 5, 8, 13, 19, 29, 21, 3, 27, 23, 17, 11, 26, 4, 24, 30, 7, 2, 28, 6, 0, 20, 18, 14, 9, 12, 10, 16, 25, 15]

theorem map_table_tableInverse : ∀ u : Slice, tableInverse[u.toNat]?.map table = some u := by
  decide

theorem table_surjective : Function.Surjective table := by
  intro u
  obtain ⟨v, -, hv⟩ := Option.map_eq_some_iff.1 (map_table_tableInverse u)
  exact ⟨v, hv⟩

theorem table_injective : Function.Injective table :=
  injective_iff_surjective.2 table_surjective

theorem some_table (v : Slice) : some (table v) = tableRom.toList[v.toNat]? := by
  simp [table, Vector.get]

/-- Settles O5: the inverse list makes TABLE surjective, and with 32 entries a permutation. -/
theorem tableIsThePermutationOfTheSpec : Obligations.TableIsThePermutationOfTheSpec :=
  ⟨rfl, some_table, fun _ _ h => table_injective h, by decide, map_table_tableInverse⟩

/-! ### SLICE (R101) -/

/-- The bits of a state from bit n + 5 up, followed by the five bits just below them. -/
theorem high_append_slice (s : Block) (n len : Nat) :
    s.extractLsb' (n + 5) len ++ s.extractLsb' n 5 = s.extractLsb' n (len + 5) :=
  BitVec.extractLsb'_append_extractLsb'_eq_extractLsb' rfl

/-- The eight slices, most significant first, are the state. -/
theorem append_slices (s : Block) :
    slice s 7 ++ slice s 6 ++ slice s 5 ++ slice s 4 ++ slice s 3 ++ slice s 2 ++ slice s 1 ++ slice s 0 = s := by
  have hs : s.extractLsb' 35 5 ++ s.extractLsb' 30 5 ++ s.extractLsb' 25 5 ++ s.extractLsb' 20 5 ++
      s.extractLsb' 15 5 ++ s.extractLsb' 10 5 ++ s.extractLsb' 5 5 ++ s.extractLsb' 0 5 =
      s.extractLsb' 0 (5 + 5 + 5 + 5 + 5 + 5 + 5 + 5) := by
    rw [high_append_slice s 30, high_append_slice s 25, high_append_slice s 20, high_append_slice s 15,
      high_append_slice s 10, high_append_slice s 5, high_append_slice s 0]
  exact hs.trans BitVec.extractLsb'_eq_self

theorem eq_of_slice_eq {s t : Block} (h : ∀ j, slice s j = slice t j) : s = t := by
  rw [← append_slices s, ← append_slices t]
  simp only [h]

/-- Settles O6: a slice is a shift and a mask, and `append_slices` puts the eight together. -/
theorem slicesPartitionTheState : Obligations.SlicesPartitionTheState := by
  refine ⟨fun s j => ?_, append_slices, by decide, by decide⟩
  rw [slice, BitVec.extractLsb'_toNat, ← Nat.and_two_pow_sub_one_eq_mod]

/-! ### SBOX (R102, R103) -/

/-- One turn of the loop of R102: the slices move up by one, and `x` comes in as slice 0. -/
def pushSlice (r : Block) (x : Slice) : Block := (r <<< 5) ||| x.setWidth 40

theorem sbox_eq_foldl_pushSlice (s : Block) :
    sbox s = sliceOrder.foldl (fun r j => pushSlice r (table (slice s j))) 0 := rfl

theorem pushSlice_eq_setWidth_append (r : Block) (x : Slice) : pushSlice r x = (r ++ x).setWidth 40 := by
  rw [BitVec.setWidth_append_eq_shiftLeft_setWidth_or, BitVec.setWidth_eq, pushSlice]

theorem slice_pushSlice_zero (r : Block) (x : Slice) : slice (pushSlice r x) 0 = x := by
  rw [pushSlice_eq_setWidth_append, slice, BitVec.extractLsb'_setWidth_of_le (by decide)]
  exact BitVec.extractLsb'_append_eq_right

theorem slice_pushSlice_succ (r : Block) (x : Slice) {k : Nat} (hk : k + 1 < 8) :
    slice (pushSlice r x) ⟨k + 1, hk⟩ = slice r ⟨k, Nat.lt_of_succ_lt hk⟩ := by
  rw [pushSlice_eq_setWidth_append, slice, BitVec.extractLsb'_setWidth_of_le (by grind),
    BitVec.extractLsb'_append_eq_of_le (by grind)]
  rfl

/-- Slice j of the loop's result is the slice that came in j turns before its end. -/
theorem slice_foldl_pushSlice (f : Fin 8 → Slice) (js : List (Fin 8)) (r : Block) {k : Nat} (hk : k < 8)
    (hlen : k < js.reverse.length) :
    slice (js.foldl (fun r j => pushSlice r (f j)) r) ⟨k, hk⟩ = f js.reverse[k] := by
  induction js using List.reverseRecOn generalizing k with
  | nil => simp at hlen
  | append_singleton js j ih =>
    cases k with
    | zero => simpa using slice_pushSlice_zero _ (f j)
    | succ k =>
      have hlen' : k < js.reverse.length := by simpa using hlen
      simpa [slice_pushSlice_succ] using ih (Nat.lt_of_succ_lt hk) hlen'

theorem getElem_reverse_sliceOrder : ∀ j : Fin 8, sliceOrder.reverse[j.val]'j.isLt = j := by
  decide

@[simp] theorem slice_sbox (s : Block) (j : Fin 8) : slice (sbox s) j = table (slice s j) := by
  rw [sbox_eq_foldl_pushSlice, slice_foldl_pushSlice (fun j => table (slice s j)) sliceOrder 0 j.isLt j.isLt,
    getElem_reverse_sliceOrder]

/-- Settles O7: the loop of R102 slice by slice, and the corner values. -/
theorem sboxSubstitutesEachSlice : Obligations.SboxSubstitutesEachSlice :=
  ⟨slice_sbox, by decide, by decide, by decide, by decide⟩

/-- SBOX keeps equality and difference of each slice, since TABLE is injective. -/
theorem slice_sbox_eq_iff {s t : Block} {j : Fin 8} : slice (sbox s) j = slice (sbox t) j ↔ slice s j = slice t j := by
  rw [slice_sbox, slice_sbox, table_injective.eq_iff]

theorem sbox_injective : Function.Injective sbox :=
  fun _ _ h => eq_of_slice_eq fun j => slice_sbox_eq_iff.1 (congrArg (slice · j) h)

/-- Settles O8: each slice of the result is that slice's table entry, and TABLE is injective. -/
theorem sboxIsLocalAndBijective : Obligations.SboxIsLocalAndBijective := by
  refine ⟨fun s t j => slice_sbox_eq_iff.2, fun s t j hj hrest => ?_, fun s t h => sbox_injective h,
    injective_iff_surjective.1 sbox_injective⟩
  exact ⟨fun h => hj (slice_sbox_eq_iff.1 h), fun i hi => slice_sbox_eq_iff.2 (hrest i hi)⟩

/-! ### The cipher for one key (R110, R111, R113, R124, R125) -/

theorem whiten_injective (kb : KeyByte) : Function.Injective (whiten · kb) :=
  fun _ _ => (BitVec.xor_left_inj (keyexp kb)).1

/-- Byte 0 comes before the other four (R111). -/
theorem rotr8_eq_append (s : Block) : rotr8 s = s.extractLsb' 0 8 ++ s.extractLsb' 8 32 := by
  have hbyte : s &&& 0xFF = (s.extractLsb' 0 8).setWidth 40 := by
    apply BitVec.eq_of_toNat_eq
    rw [BitVec.toNat_setWidth_of_le (by decide), BitVec.extractLsb'_toNat]
    exact Nat.and_two_pow_sub_one_eq_mod s.toNat 8
  have hrest : s >>> 8 = (s.extractLsb' 8 32).setWidth 40 :=
    (BitVec.ushiftRight_eq_extractLsb'_of_lt (by decide)).trans (BitVec.setWidth_eq_append (by decide)).symm
  rw [rotr8, hbyte, hrest, BitVec.or_comm, ← BitVec.setWidth_append_eq_shiftLeft_setWidth_or, BitVec.setWidth_eq]

theorem rotr8_injective : Function.Injective rotr8 := by
  intro s t h
  rw [rotr8_eq_append, rotr8_eq_append] at h
  have hbyte : s.extractLsb' 0 8 = t.extractLsb' 0 8 := by
    simpa only [BitVec.extractLsb'_append_eq_left] using congrArg (·.extractLsb' 32 8) h
  have hrest : s.extractLsb' 8 32 = t.extractLsb' 8 32 := by
    simpa only [BitVec.extractLsb'_append_eq_right] using congrArg (·.extractLsb' 0 32) h
  have hsplit (x : Block) : x.extractLsb' 8 32 ++ x.extractLsb' 0 8 = x :=
    BitVec.extractLsb'_append_extractLsb' (w := 32) (len := 8)
  rw [← hsplit s, ← hsplit t, hbyte, hrest]

theorem roundFn_injective (kb : KeyByte) : Function.Injective (roundFn · kb) :=
  rotr8_injective.comp (sbox_injective.comp (whiten_injective kb))

/-- Any rounds in any order are injective on the state. -/
theorem foldl_roundFn_injective (key : Key) (is : List RoundIndex) :
    Function.Injective (is.foldl fun s i => roundFn s (ksel key i)) := by
  induction is with
  | nil => exact Function.injective_id
  | cons i is ih => exact ih.comp (roundFn_injective (ksel key i))

theorem stateAfter_injective (n : Nat) (key : Key) : Function.Injective (stateAfter n · key) :=
  foldl_roundFn_injective key (RoundIndex.inOrder.take n)

theorem cipher_injective (key : Key) : Function.Injective (cipher · key) :=
  (whiten_injective (kfin key)).comp (stateAfter_injective Config.rounds key)

/-- Settles O18: each step of the cipher is injective, and an injective function on blocks is onto. -/
theorem cipherIsAPermutationForEachKey : Obligations.CipherIsAPermutationForEachKey :=
  ⟨fun key _ _ h => cipher_injective key h, fun key => injective_iff_surjective.1 (cipher_injective key)⟩

end Sys2Proof.Machine

/-! ## The round function (43_round_function.md) -/

namespace Sys2Proof.Machine

/-! ### WHITEN (R110) -/

theorem whiten_xor_self (s : Block) (kb : KeyByte) : whiten s kb ^^^ s = keyexp kb := by
  rw [whiten, BitVec.xor_comm, xor_xor_cancel_left]

theorem whiten_whiten (s : Block) (kb : KeyByte) : whiten (whiten s kb) kb = s := by
  rw [whiten, whiten, BitVec.xor_assoc, BitVec.xor_self, BitVec.xor_zero]

/-- Settles O9: XOR with the same word twice cancels. -/
theorem whitenIsXorWithTheMask : Obligations.WhitenIsXorWithTheMask :=
  ⟨fun _ _ => rfl, whiten_whiten, whiten_xor_self, by decide⟩

/-! ### ROTR8 byte by byte (R111) -/

theorem rotr8_append (x : BitVec 32) (b : BitVec 8) : rotr8 (x ++ b) = b ++ x := by
  rw [rotr8_eq_append, BitVec.extractLsb'_append_eq_right, BitVec.extractLsb'_append_eq_left]

theorem byte_four_rotr8 (s : Block) : (rotr8 s).extractLsb' 32 8 = s.extractLsb' 0 8 := by
  rw [rotr8_eq_append, BitVec.extractLsb'_append_eq_left]

/-- The bits below byte 4 come from eight places up. -/
theorem extractLsb'_rotr8 (s : Block) {n len : Nat} (h : n + len ≤ 32) :
    (rotr8 s).extractLsb' n len = s.extractLsb' (n + 8) len := by
  rw [rotr8_eq_append, BitVec.extractLsb'_append_eq_of_add_le h]
  ext i hi
  have hlt : n + i < 32 := by omega
  have hplace : 8 + (n + i) = n + 8 + i := by omega
  simp [hlt, hplace]

theorem byte_pred_rotr8 (s : Block) (j : Fin 5) (hj : 1 ≤ j.val) :
    (rotr8 s).extractLsb' (8 * (j.val - 1)) 8 = s.extractLsb' (8 * j.val) 8 := by
  have hplace : 8 * (j.val - 1) + 8 = 8 * j.val := by omega
  rw [extractLsb'_rotr8 s (by omega), hplace]

theorem rotr8_of_equal_bytes (b : BitVec 8) : rotr8 (b ++ b ++ b ++ b ++ b) = b ++ b ++ b ++ b ++ b := by
  have hassoc : b ++ (b ++ b ++ b ++ b) = b ++ b ++ b ++ b ++ b := by
    simp only [BitVec.append_assoc', BitVec.cast_eq]
  exact (rotr8_append (b ++ b ++ b ++ b) b).trans hassoc

/-- Settles O10: ROTR8 puts byte 0 in front of the other four. -/
theorem rotateMovesEachByteDownOne : Obligations.RotateMovesEachByteDownOne :=
  ⟨rotr8_eq_append, byte_four_rotr8, byte_pred_rotr8, by decide, by decide, rotr8_of_equal_bytes, by decide⟩

/-! ### ROTR8 repeated (R112) -/

theorem rotr8_xor (a b : Block) : rotr8 (a ^^^ b) = rotr8 a ^^^ rotr8 b := by
  simp only [rotr8_eq_append, BitVec.extractLsb'_xor]
  exact BitVec.xor_append.symm

theorem getLsbD_rotr8 (s : Block) {i : Nat} (hi : i < 40) : (rotr8 s).getLsbD i = s.getLsbD ((i + 8) % 40) := by
  rw [rotr8_eq_append, BitVec.getLsbD_append]
  split
  next hlow =>
    have hmod : (i + 8) % 40 = 8 + i := by omega
    simp [hlow, hmod]
  next hhigh =>
    have hmod : (i + 8) % 40 = i - 32 := by omega
    have hbyte : i - 32 < 8 := by omega
    simp [hbyte, hmod]

/-- Bit i of n rotations is the bit 8 n places up, cyclically. -/
theorem getLsbD_repeat_rotr8 (n : Nat) (s : Block) {i : Nat} (hi : i < 40) :
    (Nat.repeat rotr8 n s).getLsbD i = s.getLsbD ((i + 8 * n) % 40) := by
  induction n generalizing i with
  | zero => rw [Nat.repeat, Nat.mul_zero, Nat.add_zero, Nat.mod_eq_of_lt hi]
  | succ n ih =>
    have hplace : ((i + 8) % 40 + 8 * n) % 40 = (i + 8 * (n + 1)) % 40 := by omega
    rw [Nat.repeat, getLsbD_rotr8 _ hi, ih (Nat.mod_lt _ (by decide)), hplace]

theorem repeat_five_rotr8 (s : Block) : Nat.repeat rotr8 5 s = s := by
  apply BitVec.eq_of_getLsbD_eq
  intro i hi
  rw [getLsbD_repeat_rotr8 5 s hi, Nat.add_mod_right, Nat.mod_eq_of_lt hi]

theorem repeat_four_rotr8 (s : Block) : Nat.repeat rotr8 4 s = s.rotateLeft 8 := by
  apply BitVec.eq_of_getLsbD_eq
  intro i hi
  rw [getLsbD_repeat_rotr8 4 s hi, BitVec.getLsbD_rotateLeft]
  by_cases hbyte : i < 8
  · have hmod : (i + 32) % 40 = 32 + i := by omega
    simp [hbyte, hmod]
  · have hmod : (i + 32) % 40 = i - 8 := by omega
    simp [hbyte, hi, hmod]

/-- Bit 0 of the state 1 leaves its place and is back only after five rotations. -/
theorem repeat_rotr8_one_ne {n : Nat} (hpos : 0 < n) (hlt : n < 5) : Nat.repeat rotr8 n 1 ≠ 1 := by
  intro h
  have hbit : (Nat.repeat rotr8 n 1).getLsbD 0 = false := by
    have hplace : 8 * n % 40 ≠ 0 := by omega
    rw [getLsbD_repeat_rotr8 n 1 (by decide), Nat.zero_add]
    simp [hplace]
  rw [h] at hbit
  exact absurd hbit (by decide)

/-- Settles O11: n rotations move every bit down 8 n places; four and one more are five, in either order. -/
theorem rotateHasPeriodFive : Obligations.RotateHasPeriodFive :=
  ⟨repeat_five_rotr8, fun _ hpos hlt => ⟨1, repeat_rotr8_one_ne hpos hlt⟩,
    fun s => ⟨repeat_five_rotr8 s, repeat_five_rotr8 s, repeat_four_rotr8 s⟩, rotr8_xor⟩

/-! ### ROUND (R113) -/

theorem roundFn_surjective (kb : KeyByte) : Function.Surjective (roundFn · kb) :=
  injective_iff_surjective.1 (roundFn_injective kb)

/-- Settles O12: the three steps are injective, so ROUND is, and on finitely many blocks it is onto. -/
theorem roundWhitensSubstitutesRotates : Obligations.RoundWhitensSubstitutesRotates :=
  ⟨fun _ _ => rfl, by decide, by decide, by decide, by decide, by decide, by decide, by decide, by decide, by decide,
    fun kb _ _ h => roundFn_injective kb h, roundFn_surjective⟩

end Sys2Proof.Machine

/-! ## The block cipher (44_block_cipher.md): BADLEN, and ENCRYPT as a function of message and key -/

namespace Sys2Proof.Machine

/-! ### BADLEN (R121) -/

theorem badlen_iff (m k : PortWord) : badlen m k = true ↔ 2 ^ 40 ≤ m.toNat ∨ 2 ^ 56 ≤ k.toNat := by
  simp [badlen]

theorem badlen_eq_false_iff (m k : PortWord) : badlen m k = false ↔ m.toNat < 2 ^ 40 ∧ k.toNat < 2 ^ 56 := by
  simp [badlen]

theorem badlen_iff_high_bits (m k : PortWord) :
    badlen m k = true ↔ m.extractLsb' 40 24 ≠ 0 ∨ k.extractLsb' 56 8 ≠ 0 := by
  have hm : m.extractLsb' 40 24 = 0 ↔ m.toNat < 2 ^ 40 := extractLsb'_high_eq_zero_iff (n := 40) (w := 24) m
  have hk : k.extractLsb' 56 8 = 0 ↔ k.toNat < 2 ^ 56 := extractLsb'_high_eq_zero_iff (n := 56) (w := 8) k
  rw [badlen_iff, ne_eq, ne_eq, hm, hk, Nat.not_lt, Nat.not_lt]

/-- Under a key that fits, only the message decides. -/
theorem badlen_of_key_fits {k : PortWord} (hk : k.toNat < 2 ^ 56) (m : PortWord) :
    badlen m k = decide (2 ^ 40 ≤ m.toNat) := by
  have hkey : ¬ k.toNat ≥ 2 ^ 56 := Nat.not_le.2 hk
  rw [badlen, decide_eq_false hkey, Bool.or_false]

/-- With a message that fits, only the key decides. -/
theorem badlen_of_msg_fits {m : PortWord} (hm : m.toNat < 2 ^ 40) (k : PortWord) :
    badlen m k = decide (2 ^ 56 ≤ k.toNat) := by
  have hmsg : ¬ m.toNat ≥ 2 ^ 40 := Nat.not_le.2 hm
  rw [badlen, decide_eq_false hmsg, Bool.false_or]

/-- Settles O13: the two comparisons; each corner value lies at its boundary. -/
theorem badlenIsTooWideMessageOrKey : Obligations.BadlenIsTooWideMessageOrKey := by
  refine ⟨badlen_iff, badlen_iff_high_bits, fun k hk => ?_, fun m hm => ?_, by decide⟩
  · simp only [badlen_of_key_fits hk]
    decide
  · simp only [badlen_of_msg_fits hm]
    decide

/-! ### ENCRYPT of a legal input (R123 to R126) -/

theorem encrypt_of_badlen {m k : PortWord} (h : badlen m k = true) : encrypt m k = .badLength :=
  if_pos h

theorem encrypt_eq_ok_iff {m k : PortWord} {c : Block} :
    encrypt m k = .ok c ↔ badlen m k = false ∧ cipher (msgBlock m) (keyField k) = c := by
  cases h : badlen m k <;> simp [encrypt, h]

/-- A byte of the key field is the port's byte at the same place. -/
theorem byte_keyField (k : PortWord) {n : Nat} (h : n + 8 ≤ 56) :
    (keyField k).extractLsb' n 8 = (k >>> n).setWidth 8 := by
  ext i hi
  have hlt : n + i < 56 := by omega
  simp [keyField, hlt]

theorem ksel_keyField (k : PortWord) (i : RoundIndex) :
    ksel (keyField k) i = (k >>> (8 * (7 - i.toNat))).setWidth 8 :=
  byte_keyField k (by cases i <;> decide)

theorem kfin_keyField (k : PortWord) : kfin (keyField k) = k.setWidth 8 :=
  byte_keyField k (by decide)

/-- The message field of a message that fits is the message. -/
theorem toNat_msgBlock {m : PortWord} (h : m.toNat < 2 ^ 40) : (msgBlock m).toNat = m.toNat := by
  rw [msgBlock, BitVec.extractLsb'_toNat, Nat.shiftRight_zero, Nat.mod_eq_of_lt h]

/-- The cipher under a port's key field, round by round (R124, R125). -/
theorem cipher_keyField (s : Block) (k : PortWord) :
    cipher s (keyField k) =
      whiten (RoundIndex.inOrder.foldl (fun s i => roundFn s ((k >>> (8 * (7 - i.toNat))).setWidth 8)) s)
        (k.setWidth 8) := by
  simp only [cipher, stateAfter, ksel_keyField, kfin_keyField]
  rfl

/-- Settles O15: `cipher_keyField` has the six rounds of the statement, one under each of the key bytes 6 to 1. -/
theorem encryptIsSixRoundsAndFinalWhitening : Obligations.EncryptIsSixRoundsAndFinalWhitening := by
  refine ⟨fun m k h => encrypt_of_badlen ((badlen_iff m k).2 h), ?_⟩
  intro m k s0 s1 s2 s3 s4 s5 s6 hm hk h0 h1 h2 h3 h4 h5 h6
  have hs0 : msgBlock m = s0 := BitVec.eq_of_toNat_eq ((toNat_msgBlock hm).trans h0.symm)
  subst hs0 h1 h2 h3 h4 h5 h6
  exact encrypt_eq_ok_iff.2 ⟨(badlen_eq_false_iff m k).2 ⟨hm, hk⟩, cipher_keyField (msgBlock m) k⟩

/-! ### Key byte 0 (R132) -/

/-- Ports that agree above byte 0 select the same byte in every round. -/
theorem ksel_keyField_congr {k k' : PortWord} (h : k >>> 8 = k' >>> 8) (i : RoundIndex) :
    ksel (keyField k) i = ksel (keyField k') i := by
  have hplace : 8 * (7 - i.toNat) = 8 + 8 * (6 - i.toNat) := by cases i <;> rfl
  rw [ksel_keyField, ksel_keyField, hplace, BitVec.shiftRight_add, BitVec.shiftRight_add, h]

/-- Two masks over one state differ as the masks do. -/
theorem whiten_xor_whiten (s : Block) (a b : KeyByte) : whiten s a ^^^ whiten s b = keyexp a ^^^ keyexp b := by
  rw [whiten, whiten, BitVec.xor_comm s, BitVec.xor_assoc, xor_xor_cancel_left]

/-- Keys with the same round bytes give ciphertexts that differ by the final masks alone. -/
theorem cipher_xor_cipher {key key' : Key} (h : ∀ i, ksel key i = ksel key' i) (s : Block) :
    cipher s key ^^^ cipher s key' = keyexp (kfin key) ^^^ keyexp (kfin key') := by
  have hstate : stateAfter Config.rounds s key = stateAfter Config.rounds s key' := by
    simp only [stateAfter, h]
  rw [cipher, cipher, hstate, whiten_xor_whiten]

/-- A difference of two masks is the key bytes' difference in all five bytes (R91 e). -/
theorem keyexp_xor_keyexp (a b : KeyByte) :
    keyexp a ^^^ keyexp b = (a ^^^ b) ++ (a ^^^ b) ++ (a ^^^ b) ++ (a ^^^ b) ++ (a ^^^ b) := by
  obtain ⟨-, -, -, -, hdiff⟩ := keyExpanderLaws
  exact hdiff a b

/-- Settles O17: key byte 0 enters the final whitening only. -/
theorem keyByteZeroActsLinearly : Obligations.KeyByteZeroActsLinearly := by
  intro m k k' c c' hhigh hc hc'
  obtain ⟨-, rfl⟩ := encrypt_eq_ok_iff.1 hc
  obtain ⟨-, rfl⟩ := encrypt_eq_ok_iff.1 hc'
  have hdiff := cipher_xor_cipher (ksel_keyField_congr hhigh) (msgBlock m)
  rw [kfin_keyField, kfin_keyField] at hdiff
  exact ⟨hdiff, hdiff.trans (keyexp_xor_keyexp _ _)⟩

/-- Settles O16: the vectors E1 and E2 of 95_test_vectors.md, evaluated. -/
theorem encryptDemoValue : Obligations.EncryptDemoValue := by
  unfold Obligations.EncryptDemoValue
  decide +kernel

end Sys2Proof.Machine

/-! ## A transaction at the cycle level (R131, R147): its run from the input transfer to the output transfer -/

namespace Sys2Proof.Machine

/-! ### Runs with their events -/

/-- A run of n edges, with what the host sees of it. -/
inductive RunsTo : Nat → State → List Event → State → Prop
  | nil (s : State) : RunsTo 0 s [] s
  | cons {n : Nat} {s t u : State} {es : List Event} (h : step s = .next t) (run : RunsTo n t es u) :
      RunsTo (n + 1) s (s.event.toList ++ es) u

namespace RunsTo

variable {n : Nat} {s t u : State} {es : List Event}

theorem edges_eq (h : RunsTo n s es t) : edges n s = .next t := by
  induction h with
  | nil => rfl
  | cons h _ ih => rw [edges_succ_of_step h, ih]

theorem events_eq (h : RunsTo n s es t) : events n s = es := by
  induction h with
  | nil => rfl
  | cons h _ ih => rw [events_succ_of_step h, ih]

/-- One more edge at the end. -/
theorem snoc (h : RunsTo n s es t) (hstep : step t = .next u) : RunsTo (n + 1) s (es ++ t.event.toList) u := by
  induction h with
  | nil => simpa using cons hstep (nil u)
  | cons h _ ih => simpa using cons h (ih hstep)

end RunsTo

/-- Every edge takes one row of inputs. -/
theorem step_inputs {s t : State} (h : step s = .next t) : t.inputs = s.inputs.tail := by
  rcases step_next_cases h with ⟨-, rfl⟩ | ⟨-, i, u, -, hu, rfl⟩
  · simp
  · obtain ⟨u', hu', hinputs, -⟩ := exec_next i s
    obtain rfl : u' = u := by simpa [hu'] using hu
    simp [hinputs]

/-! ### The events of the edges that have one -/

theorem State.event_of_rst {s : State} (h : s.pins.rst = true) : s.event = some .reset := by
  simp [event, h]

theorem State.event_of_accept {s : State} (hr : s.pins.rst = false) (hp : s.ph = 0b00000#5)
    (hv : s.pins.inValid = true) : s.event = some (.accepted s.pins.inMsg s.pins.inKey) := by
  simp [event, hr, hp, hv, inReady_of_ph_zero hp]

theorem State.event_of_release {s : State} (hr : s.pins.rst = false) (hp : s.ph = 0b10000#5)
    (ho : s.pins.outReady = true) : s.event = some (.released s.S s.err) := by
  obtain ⟨hst, -⟩ := ph_eq_done_iff.1 hp
  simp [event, hr, hp, ho, outValid, hst, outCt, outErr]

/-! ### How far a result is from being presented (R147, R189) -/

/-- The edges without reset that are left until the result of the input in flight is presented. -/
def State.remaining (s : State) : Nat :=
  if s.st = modeRun then Config.latOk + 1 - s.rnd.toNat else 0

theorem State.remaining_of_run {s : State} (h : s.st = modeRun) : s.remaining = Config.latOk + 1 - s.rnd.toNat :=
  if_pos h

theorem State.remaining_of_done {s : State} (h : s.st = modeDone) : s.remaining = 0 :=
  if_neg (by rw [h]; decide)

@[simp] theorem State.remaining_tick (s : State) : s.tick.remaining = s.remaining := by
  simp [remaining]

/-- After ACCEPT the whole latency is left. -/
theorem State.remaining_accept (s : State) (m k : PortWord) : (s.accept m k).remaining = latency m k := by
  rcases s.accept_cases m k with ⟨hb, heq⟩ | ⟨hb, heq⟩
  · rw [heq, remaining_of_done rfl, latency, if_pos hb]
  · rw [heq, remaining_of_run rfl, latency, if_neg (by simp [hb])]
    rfl

/-- The counter of a round phase does not wrap. -/
theorem RoundPhase.toNat_succ {ph : PhaseWord} {i : RoundIndex} {n : Rnd} (h : RoundPhase ph i n) :
    (n + 1).toNat = n.toNat + 1 := by
  cases h <;> rfl

/-- A round takes one of the edges that are left. -/
theorem State.remaining_roundEdge {s : State} {i : RoundIndex} {n : Rnd} (hp : RoundPhase s.ph i n)
    (hst : s.st = modeRun) (hn : s.rnd = n) : (s.roundEdge i).remaining = s.remaining - 1 := by
  rw [remaining_of_run hst, remaining_of_run (s := s.roundEdge i) hst, roundEdge_eq, hn, hp.toNat_succ,
    Nat.sub_sub]

/-- FINAL is the last edge that is left. -/
theorem State.remaining_finalEdge {s : State} (hp : s.ph = 0b01111#5) : s.finalEdge.remaining = s.remaining - 1 := by
  obtain ⟨hst, hrnd⟩ := ph_eq_final_iff.1 hp
  rw [remaining_of_done (s := s.finalEdge) rfl, remaining_of_run hst, hrnd]
  rfl

/-- With no edge left, the result is presented (R144, R163). -/
theorem State.InFlight.presents {s : State} {m k : PortWord} (h : s.InFlight (some (m, k))) (h0 : s.remaining = 0) :
    s.ph = 0b10000#5 ∧ (s.S, s.err) = (encrypt m k).onPorts := by
  cases h with
  | done _ _ hph hout => exact ⟨hph, hout⟩
  | run _ _ n hn _ hst hrnd =>
    have hle : n ≤ 6 := hn
    rw [State.remaining_of_run hst, hrnd, BitVec.toNat_ofNat] at h0
    have hpos : 7 + 1 - (n + 1) % 2 ^ 3 ≠ 0 := by omega
    exact absurd h0 hpos

/-! ### The edges between the input transfer and the output transfer -/

/-- With an input in flight, an edge that is no reset and takes no presented result is silent and brings the result
one edge nearer. -/
theorem StepCase.silent {s t : State} {e : Option Event} {x : PortWord × PortWord} (h : StepCase s t e)
    (hf : s.InFlight (some x)) (hr : s.pins.rst = false) (hback : s.remaining = 0 → s.pins.outReady = false) :
    e = none ∧ t.InFlight (some x) ∧ t.remaining = s.remaining - 1 := by
  cases h with
  | reset hr' => simp [hr] at hr'
  | wait _ hp => cases hf.eq_none hp
  | accept _ hp => cases hf.eq_none hp
  | round i n _ hp hst hn => exact ⟨rfl, (hf.roundEdge hp).tick, by simp [State.remaining_roundEdge hp hst hn]⟩
  | final _ hp => exact ⟨rfl, (hf.finalEdge hp).tick, by simp [State.remaining_finalEdge hp]⟩
  | release _ hp ho => simp [hback (State.remaining_of_done (State.ph_eq_done_iff.1 hp).1)] at ho
  | hold _ hp => exact ⟨rfl, hf.tick, by simp [State.remaining_of_done (State.ph_eq_done_iff.1 hp).1]⟩
  | reserved _ hl => exact absurd hf.legalPhase_ph (by simp [hl])

/-- Any number of edges without reset, of which those after the result is presented hold it back, are silent and keep
the input in flight. -/
theorem State.InFlight.runsTo {x : PortWord × PortWord} {rest : List Pins} (rows : List Pins) {s : State}
    (hf : s.InFlight (some x)) (hin : s.inputs = rows ++ rest) (hrst : noReset rows)
    (hback : holdsBack (rows.drop s.remaining)) :
    ∃ t, RunsTo rows.length s [] t ∧ t.InFlight (some x) ∧ t.inputs = rest ∧
      t.remaining = s.remaining - rows.length := by
  induction rows generalizing s with
  | nil => exact ⟨s, .nil s, hf, hin, rfl⟩
  | cons r rows ih =>
    obtain ⟨hr, hrst⟩ := List.forall_mem_cons.1 hrst
    have hpins : s.pins = r := pins_of_inputs_cons hin
    have hhold : s.remaining = 0 → s.pins.outReady = false := by
      intro h0
      rw [h0] at hback
      exact hpins ▸ (hback r List.mem_cons_self).2
    obtain ⟨t, ht⟩ := step_exists_next s
    obtain ⟨hevent, htf, hleft⟩ := (step_case ht).silent hf (hpins ▸ hr) hhold
    have htback : holdsBack (rows.drop t.remaining) := by
      rw [hleft]
      cases h0 : s.remaining with
      | zero => exact fun q hq => hback q (by simpa [h0] using .inr hq)
      | succ d => simpa [h0] using hback
    obtain ⟨u, hrun, huf, huin, huleft⟩ := ih htf (by simp [step_inputs ht, hin]) hrst htback
    refine ⟨u, ?_, huf, huin, ?_⟩
    · simpa [hevent] using RunsTo.cons ht hrun
    · rw [huleft, hleft, List.length_cons, Nat.sub_sub, Nat.add_comm]

/-- An input transfer and such edges after it: the transfer is the only event, and the input stays in flight. -/
theorem runsTo_of_accept {s : State} {p : Pins} {rows rest : List Pins} (hp : s.ph = 0b00000#5)
    (hin : s.inputs = p :: (rows ++ rest)) (hr : p.rst = false) (hv : p.inValid = true) (hrst : noReset rows)
    (hback : holdsBack (rows.drop (latency p.inMsg p.inKey))) :
    ∃ t, RunsTo (rows.length + 1) s [.accepted p.inMsg p.inKey] t ∧ t.InFlight (some (p.inMsg, p.inKey)) ∧
      t.inputs = rest ∧ t.remaining = latency p.inMsg p.inKey - rows.length := by
  obtain rfl : s.pins = p := State.pins_of_inputs_cons hin
  have hleft := s.remaining_accept s.pins.inMsg s.pins.inKey
  obtain ⟨t, hrun, htf, htin, htleft⟩ := State.InFlight.runsTo (rest := rest) rows
    (State.InFlight.accept s s.pins.inMsg s.pins.inKey).tick (by simp [hin]) hrst (by simpa [hleft] using hback)
  refine ⟨t, ?_, htf, htin, by simpa [hleft] using htleft⟩
  simpa [State.event_of_accept hr hp hv] using RunsTo.cons (step_accept hr hp hv) hrun

/-- The output transfer of an input whose result is presented (R131, R145). -/
theorem State.InFlight.step_release {s : State} {m k : PortWord} (h : s.InFlight (some (m, k)))
    (h0 : s.remaining = 0) (hr : s.pins.rst = false) (ho : s.pins.outReady = true) :
    step s = .next s.release.tick ∧
      s.event = some (.released (encrypt m k).onPorts.1 (encrypt m k).onPorts.2) ∧
      (s.S, s.err) = (encrypt m k).onPorts := by
  obtain ⟨hp, hout⟩ := h.presents h0
  refine ⟨by rw [step_done hr hp, if_pos ho], ?_, hout⟩
  rw [event_of_release hr hp ho, ← hout]

/-- Settles O49: the silent run up to the edge that releases the result, or that resets. -/
theorem transactionDeliversEncrypt : Obligations.TransactionDeliversEncrypt := by
  constructor
  · intro s p q busy holds rest hp hin hr hv hlen hbusy hholds hqr hqo
    have hrst : noReset (busy ++ holds) := List.forall_mem_append.2 ⟨hbusy, fun w hw => (hholds w hw).1⟩
    obtain ⟨t, hrun, htf, htin, htleft⟩ := runsTo_of_accept (rows := busy ++ holds) hp (by simpa using hin) hr hv hrst
      (by simpa [← hlen] using hholds)
    have hpins : t.pins = q := State.pins_of_inputs_cons htin
    obtain ⟨hstep, hevent, hout⟩ := htf.step_release (by rw [htleft, ← hlen]; simp) (hpins ▸ hqr) (hpins ▸ hqo)
    have hfull := hrun.snoc hstep
    rw [hevent, List.length_append] at hfull
    have hph : t.release.tick.ph = 0b00000#5 := by rw [State.tick_ph, State.ph_eq_idle_iff]; exact ⟨rfl, rfl⟩
    exact ⟨hfull.events_eq, _, hfull.edges_eq, hph, State.inReady_of_ph_zero hph,
      by simpa [State.release_eq] using hout, by simp [State.release_eq, htin]⟩
  · intro s p r rows rest hp hin hr hv hrst hback hrr
    obtain ⟨t, hrun, -, htin, -⟩ := runsTo_of_accept hp hin hr hv hrst hback
    have hreset : t.pins.rst = true := State.pins_of_inputs_cons htin ▸ hrr
    have hfull := hrun.snoc (step_of_rst hreset)
    rw [State.event_of_rst hreset] at hfull
    exact ⟨hfull.events_eq, _, hfull.edges_eq, State.tick_regs _, by simp [htin]⟩

end Sys2Proof.Machine

/-! ## The sequencer (45_sequencer.md): the invariant, the micro-operations, and the step by phase word -/

namespace Sys2Proof.Machine

/-! ### Runs of several edges -/

/-- What every edge keeps, every run keeps. -/
theorem edges_keep {P : State → Prop} (hstep : ∀ s t, P s → step s = .next t → P t) (n : Nat) {s t : State}
    (hs : P s) (h : edges n s = .next t) : P t := by
  induction n generalizing s with
  | zero => cases h; exact hs
  | succ n ih =>
    obtain ⟨u, hu⟩ := step_exists_next s
    exact ih (hstep s u hs hu) (by rwa [edges_succ_of_step hu] at h)

/-! ### The phase word after each operation (R147) -/

@[simp] theorem State.release_ph (s : State) : s.release.ph = 0b00000#5 := ph_eq_idle_iff.2 ⟨rfl, rfl⟩

@[simp] theorem State.recover_ph (s : State) : s.recover.ph = 0b00000#5 := ph_eq_idle_iff.2 ⟨rfl, rfl⟩

@[simp] theorem State.finalEdge_ph (s : State) : s.finalEdge.ph = 0b10000#5 := ph_eq_done_iff.2 ⟨rfl, rfl⟩

/-- ACCEPT goes to ROUND1, or to DONE with BadLength (R142). -/
theorem State.accept_ph (s : State) (m k : PortWord) :
    (s.accept m k).ph = if badlen m k then 0b10000#5 else 0b01001#5 := by
  rcases s.accept_cases m k with ⟨hb, heq⟩ | ⟨hb, heq⟩ <;> rw [heq, hb]
  · exact ph_eq_done_iff.2 ⟨rfl, rfl⟩
  · exact (ph_eq_iff _ modeRun 1).2 ⟨rfl, rfl⟩

/-- A round goes to the next phase of RUN (R143). -/
theorem State.roundEdge_ph {s : State} {i : RoundIndex} {n : Rnd} (hp : RoundPhase s.ph i n) :
    (s.roundEdge i).ph = modeRun ++ (n + 1) := by
  obtain ⟨hst, hn⟩ := (s.ph_eq_iff _ _).1 hp.ph_eq
  exact (ph_eq_iff _ _ _).2 ⟨hst, by rw [roundEdge_eq, hn]⟩

theorem RoundPhase.legalPhase_next {ph : PhaseWord} {i : RoundIndex} {n : Rnd} (h : RoundPhase ph i n) :
    legalPhase (modeRun ++ (n + 1)) = true := by
  cases h <;> rfl

/-! ### The invariant (R149 a, b, c) -/

namespace State.Inv

variable {s : State}

/-- With err = 0 only the phase is left to check. -/
theorem of_no_err (hl : legalPhase s.ph = true) (he : s.err = false) : s.Inv :=
  ⟨hl, fun _ => he, fun h => by simp [he] at h⟩

/-- Outside RUN, err may be 1 when S and K are 0. -/
theorem of_idle_or_done (hl : legalPhase s.ph = true) (hst : s.st = modeIdle ∨ s.st = modeDone)
    (hc : s.err = true → s.S = 0 ∧ s.K = 0) : s.Inv := by
  refine ⟨hl, fun hrun => ?_, fun he => ⟨(hc he).1, (hc he).2, hst⟩⟩
  rw [hrun] at hst
  exact absurd hst (by decide)

theorem tick (h : s.Inv) : s.tick.Inv := by
  obtain ⟨hlegal, hrun, hcleared⟩ := h
  exact ⟨by simpa using hlegal, by simpa using hrun, by simpa using hcleared⟩

theorem resetEdge (s : State) : s.resetEdge.Inv :=
  of_no_err (by rw [State.resetEdge_ph]; rfl) rfl

/-- ACCEPT starts a transaction with err = 0, or clears S and K with err = 1 (R142). -/
theorem accept (s : State) (m k : PortWord) : (s.accept m k).Inv := by
  have hph := s.accept_ph m k
  rcases s.accept_cases m k with ⟨hb, heq⟩ | ⟨hb, heq⟩ <;> rw [hb, heq] at hph <;> rw [heq]
  · exact of_idle_or_done (by rw [hph]; rfl) (.inr rfl) fun _ => ⟨rfl, rfl⟩
  · exact of_no_err (by rw [hph]; rfl) rfl

theorem roundEdge {i : RoundIndex} {n : Rnd} (h : s.Inv) (hp : RoundPhase s.ph i n) (hst : s.st = modeRun) :
    (s.roundEdge i).Inv :=
  of_no_err (by rw [State.roundEdge_ph hp, hp.legalPhase_next]) (h.run_no_err hst)

theorem finalEdge (h : s.Inv) (hp : s.ph = 0b01111#5) : s.finalEdge.Inv := by
  obtain ⟨hst, -⟩ := State.ph_eq_final_iff.1 hp
  exact of_no_err (by rw [State.finalEdge_ph]; rfl) (h.run_no_err hst)

/-- The return to IDLE keeps S, K and err (R145). -/
theorem release (h : s.Inv) : s.release.Inv := by
  refine of_idle_or_done (by rw [State.release_ph]; rfl) (.inl rfl) fun he => ?_
  obtain ⟨hS, hK, -⟩ := h.err_cleared he
  exact ⟨hS, hK⟩

end State.Inv

theorem StepCase.inv {s t : State} {e : Option Event} (h : StepCase s t e) (hs : s.Inv) : t.Inv := by
  cases h with
  | reset => exact (State.Inv.resetEdge s).tick
  | wait => exact hs.tick
  | accept => exact (State.Inv.accept s _ _).tick
  | round i n _ hp hst => exact (hs.roundEdge hp hst).tick
  | final _ hp => exact (hs.finalEdge hp).tick
  | release => exact hs.release.tick
  | hold => exact hs.tick
  | reserved _ hl => exact absurd hs.phase_legal (by simp [hl])

/-- Settles O39: each case of a step keeps the invariant. -/
theorem everyEdgeKeepsTheInvariant : Obligations.EveryEdgeKeepsTheInvariant :=
  fun _ _ hs hstep => (step_case hstep).inv hs

/-- Settles O38: reset clears err. -/
theorem invariantHoldsAfterReset : Obligations.InvariantHoldsAfterReset :=
  fun rows n => State.Inv.resetEdge { State.reset with inputs := rows, freeDraws := n }

/-- Settles O42: the invariant holds at reset, and every edge keeps it. -/
theorem everyReachableStateMeetsTheInvariant : Obligations.EveryReachableStateMeetsTheInvariant :=
  fun rows d n _ h => edges_keep everyEdgeKeepsTheInvariant n (invariantHoldsAfterReset rows d) h

/-! ### The output ports (R146) -/

/-- In RUN the machine is not ready and presents nothing. -/
theorem State.outputs_of_run {s : State} (h : s.st = modeRun) : s.inReady = false ∧ s.outValid = false := by
  simp [inReady, outValid, h]

/-- In DONE the machine is not ready and presents its result. -/
theorem State.outputs_of_done {s : State} (h : s.st = modeDone) : s.inReady = false ∧ s.outValid = true := by
  simp [inReady, outValid, h]

/-- Equal registers, one by one. -/
theorem State.regs_eq_iff {s s' : State} :
    s.regs = s'.regs ↔ s.st = s'.st ∧ s.rnd = s'.rnd ∧ s.S = s'.S ∧ s.K = s'.K ∧ s.err = s'.err := by
  simp [regs]

/-- Settles O32: the outputs are comparisons of st, and the registers S and err themselves. -/
theorem outputsAreFunctionsOfRegisters : Obligations.OutputsAreFunctionsOfRegisters := by
  constructor
  · intro s
    exact ⟨beq_iff_eq, beq_iff_eq, rfl, rfl⟩
  · intro s s' h
    obtain ⟨hst, -, hS, -, herr⟩ := State.regs_eq_iff.1 h
    exact ⟨by rw [State.inReady, hst]; rfl, by rw [State.outValid, hst]; rfl, hS, herr⟩

/-! ### IDLE: waiting and the input transfer (R141, R142) -/

theorem exec_idle_of_no_offer {s : State} (hv : s.pins.inValid = false) : exec .idle s = .next s := by
  simp [exec, execIdle, hv]

theorem State.event_of_wait {s : State} (hr : s.pins.rst = false) (hp : s.ph = 0b00000#5)
    (hv : s.pins.inValid = false) : s.event = none := by
  simp [event, hr, hp, hv]

/-- Edges in IDLE without an offer take their rows and do nothing else. -/
theorem runsTo_of_waits (waits : List Pins) {s : State} {rest : List Pins} (hp : s.ph = 0b00000#5)
    (hin : s.inputs = waits ++ rest) (hwaits : ∀ w ∈ waits, w.rst = false ∧ w.inValid = false) :
    RunsTo waits.length s [] { s with inputs := rest } := by
  induction waits generalizing s with
  | nil =>
    obtain rfl : s.inputs = rest := hin
    exact .nil s
  | cons w waits ih =>
    obtain rfl : s.pins = w := State.pins_of_inputs_cons hin
    obtain ⟨⟨hr, hv⟩, hrest⟩ := List.forall_mem_cons.1 hwaits
    have htick : s.tick = { s with inputs := waits ++ rest } := State.tick_of_inputs_cons hin
    have hstep := htick ▸ step_wait hr hp hv
    simpa [State.event_of_wait hr hp hv] using RunsTo.cons hstep (ih hp rfl hrest)

/-- Settles O26: the meaning of IDLE without an offer, and its runs. -/
theorem idleWaitWritesNothing : Obligations.IdleWaitWritesNothing := by
  constructor
  · intro s _ hv
    exact exec_idle_of_no_offer hv
  · intro s waits rest hp hin hwaits
    have hrun := runsTo_of_waits waits hp hin hwaits
    exact ⟨hrun.edges_eq, hrun.events_eq, State.inReady_of_ph_zero hp⟩

theorem exec_encrypt (m k : PortWord) (s : State) : exec (.encrypt m k) s = .next (s.accept m k) := rfl

theorem exec_idle_of_offer {s : State} (hv : s.pins.inValid = true) :
    exec .idle s = exec (.encrypt s.pins.inMsg s.pins.inKey) s := by
  simp [exec, execIdle, execEncrypt, hv]

theorem msgBlock_eq_setWidth (m : PortWord) : msgBlock m = m.setWidth 40 :=
  (BitVec.setWidth_eq_extractLsb' (by decide)).symm

theorem keyField_eq_setWidth (k : PortWord) : keyField k = k.setWidth 56 :=
  (BitVec.setWidth_eq_extractLsb' (by decide)).symm

theorem exec_encrypt_of_fits {m k : PortWord} (h : badlen m k = false) (s : State) :
    exec (.encrypt m k) s =
      .next { s with S := m.setWidth 40, K := k.setWidth 56, err := false, st := modeRun, rnd := 1 } := by
  rw [exec_encrypt, s.accept_of_fits h, msgBlock_eq_setWidth, keyField_eq_setWidth]

theorem exec_encrypt_of_badlen {m k : PortWord} (h : badlen m k = true) (s : State) :
    exec (.encrypt m k) s = .next { s with S := 0, K := 0, err := true, st := modeDone, rnd := 0 } := by
  rw [exec_encrypt, s.accept_of_badlen h]

/-- Settles O27: ACCEPT by BADLEN, whose two comparisons are the hypotheses. -/
theorem acceptLoadsOrTakesBadLength : Obligations.AcceptLoadsOrTakesBadLength :=
  ⟨fun m k s hm hk => exec_encrypt_of_fits ((badlen_eq_false_iff m k).2 ⟨hm, hk⟩) s,
    fun m k s h => exec_encrypt_of_badlen ((badlen_iff m k).2 h) s,
    fun _ hv => exec_idle_of_offer hv,
    fun s => exec_encrypt_of_fits (by decide) s⟩

/-! ### RUN: the rounds and FINAL (R143, R144) -/

/-- In its phase a round writes S and the counter's next value. -/
theorem exec_roundInstr_of_phase {s : State} {ph : PhaseWord} {i : RoundIndex} {n : Rnd} (hp : RoundPhase ph i n)
    (h : s.ph = ph) : exec (roundInstr i) s = .next { s with S := roundFn s.S (ksel s.K i), rnd := n + 1 } := by
  subst h
  obtain ⟨-, hn⟩ := (s.ph_eq_iff _ _).1 hp.ph_eq
  rw [exec_roundInstr, State.roundEdge_eq, hn]

/-- Settles O28: the six rounds in their phases, and the first with the values of the demo. -/
theorem roundPhasesRunOneRoundEach : Obligations.RoundPhasesRunOneRoundEach := by
  refine ⟨fun _ => exec_roundInstr_of_phase .r1, fun _ => exec_roundInstr_of_phase .r2,
    fun _ => exec_roundInstr_of_phase .r3, fun _ => exec_roundInstr_of_phase .r4,
    fun _ => exec_roundInstr_of_phase .r5, fun _ => exec_roundInstr_of_phase .r6,
    fun _ h => (State.outputs_of_run h).1, fun s h hS hK => ?_⟩
  have hround : roundFn s.S (ksel s.K .r1) = 0x5F827A255B := by rw [hS, hK]; decide
  have hexec := exec_roundInstr_of_phase .r1 h
  rw [hround] at hexec
  exact hexec

theorem exec_final (s : State) :
    exec .final s = .next { s with S := whiten s.S (kfin s.K), st := modeDone, rnd := 0 } := rfl

/-- Settles O29: the meaning of FINAL, and err = 0 in RUN by the invariant. -/
theorem finalWhitensAndPresents : Obligations.FinalWhitensAndPresents := by
  refine ⟨exec_final, fun s hS hK => ?_, fun s hinv hp => ?_⟩
  · have hwhiten : whiten 0xFC04BD0FAB 0xEE = 0x1215531E45 := by decide
    rw [exec_final, hS, kfin, hK, hwhiten]
    rfl
  · obtain ⟨hst, -⟩ := State.ph_eq_final_iff.1 hp
    have herr := hinv.run_no_err hst
    exact ⟨herr, _, exec_final s, herr⟩

/-! ### DONE and the reserved phase words (R145, R148) -/

theorem exec_done_of_ready {s : State} (ho : s.pins.outReady = true) :
    exec .done s = .next { s with st := modeIdle, rnd := 0 } := by
  simp [exec, execDone, ho, State.release_eq]

theorem exec_done_of_not_ready {s : State} (ho : s.pins.outReady = false) : exec .done s = .next s := by
  simp [exec, execDone, ho]

/-- Settles O30: the meaning of DONE both ways, its outputs, and its event. -/
theorem doneReleasesOrHolds : Obligations.DoneReleasesOrHolds := by
  refine ⟨fun _ => exec_done_of_ready, fun _ => exec_done_of_not_ready, fun s hp => ?_⟩
  obtain ⟨hready, hvalid⟩ := State.outputs_of_done (State.ph_eq_done_iff.1 hp).1
  exact ⟨hready, hvalid, fun hr ho => State.event_of_release hr hp ho⟩

/-- A reserved phase word is none of those that a transaction visits (R77, R78). -/
theorem ne_of_not_legalPhase :
    ∀ ph : PhaseWord, legalPhase ph = false → ph ≠ 0b00000#5 ∧ ¬ (0b01001#5 ≤ ph ∧ ph ≤ 0b01110#5) ∧
      ph ≠ 0b01111#5 ∧ ph ≠ 0b10000#5 := by
  decide

theorem State.event_of_reserved {s : State} (hr : s.pins.rst = false) (hl : legalPhase s.ph = false) :
    s.event = none := by
  obtain ⟨hidle, -, -, hdone⟩ := ne_of_not_legalPhase s.ph hl
  simp [event, hr, hidle, hdone]

/-- Settles O31: every reserved row is RECOVER, and every phase word that is not legal is of such a row. -/
theorem reservedPhasesRecover : Obligations.ReservedPhasesRecover := by
  refine ⟨fun i hi s => exec_of_isReserved ?_ s, fun x s => ⟨exec_of_isReserved rfl s, exec_of_isReserved rfl s⟩,
    fun x s => ⟨exec_of_isReserved rfl s, exec_of_isReserved rfl s⟩, fun x s => exec_of_isReserved rfl s,
    fun s hl hr => ?_⟩
  · revert i
    decide
  · exact ⟨State.event_of_reserved hr hl, _, step_reserved hr hl, by simp, by simp [State.recover_eq]⟩

/-! ### The step by phase word (R140, R147) -/

/-- A round's phase word lies in the range of the rounds (R77). -/
theorem RoundPhase.mem_rounds {ph : PhaseWord} {i : RoundIndex} {n : Rnd} (h : RoundPhase ph i n) :
    0b01001#5 ≤ ph ∧ ph ≤ 0b01110#5 := by
  cases h <;> decide

/-- KSEL with the round counter as its index, as R143 writes it. -/
theorem RoundPhase.ksel_eq {ph : PhaseWord} {i : RoundIndex} {n : Rnd} (h : RoundPhase ph i n) (key : Key) :
    ksel key i = (key >>> (8 * (7 - n.toNat))).setWidth 8 := by
  rw [BitVec.setWidth_ushiftRight_eq_extractLsb]
  cases h <;> rfl

/-- Settles O36: each case of a step is the arm of the map that its phase word selects. -/
theorem stepFollowsThePhaseWordMap : Obligations.StepFollowsThePhaseWordMap := by
  intro s
  obtain ⟨t, ht⟩ := step_exists_next s
  refine ⟨t, ht, s.tick, s.tick_regs, s.tick_inputs, s.tick_freeDraws, ?_⟩
  have hcase := step_case ht
  generalize s.event = e at hcase
  cases hcase with
  | reset hr => rw [if_pos hr]; simp [State.tick_eq, State.resetEdge_eq]
  | wait hr hp hv => simp [hr, hp, hv]
  | accept hr hp hv =>
    rcases s.accept_cases s.pins.inMsg s.pins.inKey with ⟨hb, heq⟩ | ⟨hb, heq⟩
    · rw [if_neg (by simp [hr]), if_pos hp, if_neg (by simp [hv]), if_pos ((badlen_iff _ _).1 hb), heq]
      simp [State.tick_eq]
    · have hfits := mt (badlen_iff s.pins.inMsg s.pins.inKey).2 (by simp [hb])
      rw [if_neg (by simp [hr]), if_pos hp, if_neg (by simp [hv]), if_neg hfits, heq]
      simp [State.tick_eq, msgBlock_eq_setWidth, keyField_eq_setWidth]
  | round i n hr hp hst hn =>
    simp [hr, hp.ne_idle, hp.mem_rounds, State.roundEdge_eq, State.tick_eq, hp.ksel_eq, hn]
  | final hr hp => simp [hr, hp, State.finalEdge_eq, State.tick_eq]
  | release hr hp ho => simp [hr, hp, ho, State.release_eq, State.tick_eq]
  | hold hr hp ho => simp [hr, hp, ho]
  | reserved hr hl =>
    obtain ⟨hidle, hround, hfinal, hdone⟩ := ne_of_not_legalPhase s.ph hl
    rw [if_neg (by simp [hr]), if_neg hidle, if_neg hround, if_neg hfinal, if_neg hdone]
    simp [State.recover_eq, State.tick_eq]

/-- From IDLE a step goes to IDLE, or by an input transfer to ROUND1 or DONE. -/
theorem step_ph_of_idle {s t : State} (hr : s.pins.rst = false) (h : step s = .next t) (hp : s.ph = 0b00000#5) :
    t.ph = 0b00000#5 ∨ t.ph = 0b01001#5 ∨ t.ph = 0b10000#5 := by
  cases hv : s.pins.inValid with
  | false =>
    obtain rfl : s.tick = t := by simpa [step_wait hr hp hv] using h
    exact .inl (by simpa using hp)
  | true =>
    obtain rfl : (s.accept s.pins.inMsg s.pins.inKey).tick = t := by simpa [step_accept hr hp hv] using h
    rw [State.tick_ph, State.accept_ph]
    split
    · exact .inr (.inr rfl)
    · exact .inr (.inl rfl)

/-- From the phase of a round a step goes to the phase with the counter's next value. -/
theorem step_ph_of_round {s t : State} {ph : PhaseWord} {i : RoundIndex} {n : Rnd} (hr : s.pins.rst = false)
    (h : step s = .next t) (hround : RoundPhase ph i n) (hp : s.ph = ph) : t.ph = modeRun ++ (n + 1) := by
  subst hp
  obtain rfl : (s.roundEdge i).tick = t := by simpa [step_round hr hround] using h
  rw [State.tick_ph, State.roundEdge_ph hround]

theorem step_ph_of_final {s t : State} (hr : s.pins.rst = false) (h : step s = .next t) (hp : s.ph = 0b01111#5) :
    t.ph = 0b10000#5 := by
  obtain rfl : s.finalEdge.tick = t := by simpa [step_final hr hp] using h
  simp

/-- From DONE a step goes to IDLE by a release, and stays in DONE without one. -/
theorem step_ph_of_done {s t : State} (hr : s.pins.rst = false) (h : step s = .next t) (hp : s.ph = 0b10000#5) :
    t.ph = 0b00000#5 ∨ t.ph = 0b10000#5 := by
  obtain rfl : (if s.pins.outReady then s.release else s).tick = t := by simpa [step_done hr hp] using h
  rw [State.tick_ph]
  split
  · exact .inl s.release_ph
  · exact .inr hp

/-- Settles O43: one lemma for each kind of phase. -/
theorem phaseWordsFollowTheFixedOrder : Obligations.PhaseWordsFollowTheFixedOrder := by
  intro s t hr h
  exact ⟨step_ph_of_idle hr h, step_ph_of_round hr h .r1, step_ph_of_round hr h .r2, step_ph_of_round hr h .r3,
    step_ph_of_round hr h .r4, step_ph_of_round hr h .r5, step_ph_of_round hr h .r6, step_ph_of_final hr h,
    step_ph_of_done hr h⟩

/-! ### Where the input ports matter (R184) -/

/-- A round, FINAL and the return to IDLE read registers only. -/
theorem State.regs_congr {s s' : State} (h : s.regs = s'.regs) :
    (∀ i, (s.roundEdge i).regs = (s'.roundEdge i).regs) ∧ s.finalEdge.regs = s'.finalEdge.regs ∧
      s.release.regs = s'.release.regs ∧ s.recover.regs = s'.recover.regs := by
  obtain ⟨hst, hrnd, hS, hK, herr⟩ := regs_eq_iff.1 h
  simp [regs_eq_iff, roundEdge_eq, finalEdge_eq, release_eq, recover_eq, hst, hrnd, hS, hK, herr]

theorem State.ph_congr {s s' : State} (h : s.regs = s'.regs) : s.ph = s'.ph := by
  obtain ⟨hst, hrnd, -⟩ := regs_eq_iff.1 h
  rw [ph, ph, hst, hrnd]

/-- Settles O45: the two edges are the same case of a step, which reads registers and the ports it samples. -/
theorem inputsMatterOnlyWhereSampled : Obligations.InputsMatterOnlyWhereSampled := by
  intro s s' hregs hr hr' hidle hdone
  obtain ⟨hround, hfinal, hrelease, hrecover⟩ := State.regs_congr hregs
  have hph := State.ph_congr hregs
  cases hl : legalPhase s.ph with
  | false => exact ⟨_, _, step_reserved hr hl, step_reserved hr' (hph ▸ hl), by simpa using hrecover⟩
  | true =>
    rcases legalPhase_cases _ hl with hp | ⟨i, n, hp⟩ | hp | hp
    · obtain ⟨hvalid, hports⟩ := hidle hp
      cases hv : s.pins.inValid with
      | false =>
        exact ⟨_, _, step_wait hr hp hv, step_wait hr' (hph ▸ hp) (hvalid ▸ hv), by simpa using hregs⟩
      | true =>
        obtain ⟨hmsg, hkey⟩ := hports hv
        exact ⟨_, _, step_accept hr hp hv, step_accept hr' (hph ▸ hp) (hvalid ▸ hv),
          by simp [State.accept_regs, hmsg, hkey]⟩
    · exact ⟨_, _, step_round hr hp, step_round hr' (hph ▸ hp), by simpa using hround i⟩
    · exact ⟨_, _, step_final hr hp, step_final hr' (hph ▸ hp), by simpa using hfinal⟩
    · refine ⟨_, _, step_done hr hp, step_done hr' (hph ▸ hp), ?_⟩
      rw [State.tick_regs, State.tick_regs, ← hdone hp]
      split
      · exact hrelease
      · exact hregs

/-! ### The phases of a legal transaction (R147, R149 d, R189) -/

theorem latency_of_fits {m k : PortWord} (h : badlen m k = false) : latency m k = Config.latOk :=
  if_neg (by simp [h])

/-- With 7 - j edges left, and so at least one, the input in flight is before round j + 1, or FINAL at j = 6. -/
theorem State.InFlight.run_of_remaining {s : State} {m k : PortWord} {j : Nat} (h : s.InFlight (some (m, k)))
    (hj : j ≤ Config.rounds) (hleft : s.remaining = Config.latOk - j) :
    s.st = modeRun ∧ s.rnd = BitVec.ofNat 3 (j + 1) ∧ s.S = stateAfter j (msgBlock m) (keyField k) ∧
      s.K = keyField k ∧ s.err = false := by
  have hj6 : j ≤ 6 := hj
  cases h with
  | done _ _ hph =>
    rw [remaining_of_done (ph_eq_done_iff.1 hph).1] at hleft
    have hpos : 0 ≠ 7 - j := by omega
    exact absurd hleft hpos
  | run _ _ n hn hfits hst hrnd hS hK herr =>
    have hn6 : n ≤ 6 := hn
    rw [remaining_of_run hst, hrnd, BitVec.toNat_ofNat] at hleft
    have hleft' : 7 + 1 - (n + 1) % 2 ^ 3 = 7 - j := hleft
    obtain rfl : n = j := by omega
    exact ⟨hst, hrnd, hS, hK, herr⟩

/-- After a legal input transfer and up to seven edges without reset, the input is in flight, and each of those edges
has brought its result one edge nearer. -/
theorem edges_of_accept {s : State} {p : Pins} {rows rest : List Pins} (hp : s.ph = 0b00000#5)
    (hin : s.inputs = p :: (rows ++ rest)) (hr : p.rst = false) (hv : p.inValid = true)
    (hfits : badlen p.inMsg p.inKey = false) (hrst : noReset rows) (hlen : rows.length ≤ Config.latOk) :
    ∃ t, edges (1 + rows.length) s = .next t ∧ t.InFlight (some (p.inMsg, p.inKey)) ∧ t.inputs = rest ∧
      t.remaining = Config.latOk - rows.length := by
  have hlat := latency_of_fits hfits
  obtain ⟨t, hrun, htf, htin, hleft⟩ := runsTo_of_accept hp hin hr hv hrst
    (by rw [hlat, List.drop_of_length_le hlen]; exact List.forall_mem_nil _)
  exact ⟨t, by rw [Nat.add_comm, hrun.edges_eq], htf, htin, by rw [hleft, hlat]⟩

/-- Settles O47: the run up to a round says all registers, and FINAL after the sixth keeps K and presents the result. -/
theorem legalTransactionVisitsItsPhases : Obligations.LegalTransactionVisitsItsPhases := by
  intro s p rows rest hp hin hr hv hfits hrst
  constructor
  · intro hlen
    obtain ⟨t, hrun, htf, htin, hleft⟩ := edges_of_accept hp hin hr hv hfits hrst (Nat.le_succ_of_le hlen)
    obtain ⟨hst, hrnd, hS, hK, herr⟩ := htf.run_of_remaining hlen hleft
    obtain ⟨hready, hvalid⟩ := State.outputs_of_run hst
    exact ⟨t, hrun, hst, hrnd, hS, hK, herr, htin, hready, hvalid⟩
  · intro hlen
    rcases rows.eq_nil_or_concat' with rfl | ⟨rounds, q, rfl⟩
    · cases hlen
    obtain ⟨hrounds, hq⟩ := List.forall_mem_append.1 hrst
    have hsix : rounds.length = Config.rounds := Nat.succ.inj (List.length_append.symm.trans hlen)
    obtain ⟨t, hrun, htf, htin, hleft⟩ := edges_of_accept (rest := q :: rest) hp (by simpa using hin) hr hv hfits
      hrounds (by rw [hsix]; decide)
    obtain ⟨hst, hrnd, -, hK, -⟩ := htf.run_of_remaining hsix.le hleft
    have hfinal : t.ph = 0b01111#5 := State.ph_eq_final_iff.2 ⟨hst, by rw [hrnd, hsix]; rfl⟩
    have htr : t.pins.rst = false := by
      rw [State.pins_of_inputs_cons htin]
      exact hq q List.mem_cons_self
    have hlast : edges 1 t = .next t.finalEdge.tick := by rw [edges_succ_of_step (step_final htr hfinal), edges_zero]
    obtain ⟨hph, hout⟩ := (htf.finalEdge hfinal).tick.presents (by simp [State.remaining_of_done, State.finalEdge_eq])
    obtain ⟨hready, hvalid⟩ := State.outputs_of_done (State.ph_eq_done_iff.1 hph).1
    refine ⟨t.finalEdge.tick, ?_, hph, hvalid, hready, hout, by simpa [State.finalEdge_eq] using hK, ?_⟩
    · rw [List.length_append, ← Nat.add_assoc, edges_add _ _ hrun, List.length_singleton, hlast]
    · simp [State.finalEdge_eq, htin]

end Sys2Proof.Machine

/-! ## The exception BadLength (60_exceptions.md): its entry, its return, and the two edges together -/

namespace Sys2Proof.Machine

/-- The entry to BadLength (R162, R163): nothing of the rejected input is kept, and the result is presented. -/
theorem runsTo_of_badlen {s : State} {p : Pins} {rest : List Pins} (hp : s.ph = 0b00000#5) (hin : s.inputs = p :: rest)
    (hr : p.rst = false) (hv : p.inValid = true) (hb : badlen p.inMsg p.inKey = true) :
    RunsTo 1 s [.accepted p.inMsg p.inKey]
      { s with st := modeDone, rnd := 0, S := 0, K := 0, err := true, inputs := rest } := by
  obtain rfl : s.pins = p := State.pins_of_inputs_cons hin
  have htick := State.tick_of_inputs_cons ((s.accept_inputs s.pins.inMsg s.pins.inKey).trans hin)
  have hstep := step_accept hr hp hv
  rw [htick, s.accept_of_badlen hb] at hstep
  simpa [State.event_of_accept hr hp hv] using RunsTo.cons hstep (.nil _)

/-- The return from a presented result, BadLength or any other (R164): S, K and err keep their values. -/
theorem step_release {s : State} {q : Pins} {rest : List Pins} (hp : s.ph = 0b10000#5) (hin : s.inputs = q :: rest)
    (hr : q.rst = false) (ho : q.outReady = true) :
    step s = .next { s with st := modeIdle, rnd := 0, inputs := rest } ∧ s.event = some (.released s.S s.err) := by
  obtain rfl : s.pins = q := State.pins_of_inputs_cons hin
  refine ⟨?_, State.event_of_release hr hp ho⟩
  rw [step_done hr hp, if_pos ho, State.tick_of_inputs_cons (s := s.release) hin, State.release_eq]

/-- Settles O48: the entry, and the return as from any result. -/
theorem badLengthIsAnsweredAtOnce : Obligations.BadLengthIsAnsweredAtOnce := by
  intro s p q rest hp hin hr hv hb hqr hqo
  have hentry := runsTo_of_badlen hp hin hr hv hb
  have hdone : State.ph { s with st := modeDone, rnd := 0, S := 0, K := 0, err := true, inputs := q :: rest } =
      0b10000#5 := State.ph_eq_done_iff.2 ⟨rfl, rfl⟩
  obtain ⟨hreturn, hevent⟩ := step_release hdone rfl hqr hqo
  have hboth := hentry.snoc hreturn
  rw [hevent] at hboth
  exact ⟨hentry.edges_eq, hboth.edges_eq, hboth.events_eq⟩

end Sys2Proof.Machine

/-! ## Reset and the handshake over runs (70_reset_and_hazards.md): resets, offers after reset, held results, timing -/

namespace Sys2Proof.Machine

/-! ### Edges that leave every register as it is -/

/-- An edge at which the host drives `w` shows the event `e` and changes nothing but the rows of inputs. -/
def State.Stays (s : State) (e : Option Event) (w : Pins) : Prop :=
  ∀ rest, step { s with inputs := w :: rest } = .next { s with inputs := rest } ∧
    State.event { s with inputs := w :: rest } = e

/-- Such edges one after another: each shows the event, if it is one, and the registers never change. -/
theorem runsTo_of_stays {s : State} {e : Option Event} (rows rest : List Pins) (h : ∀ w ∈ rows, s.Stays e w) :
    RunsTo rows.length { s with inputs := rows ++ rest } (List.replicate rows.length e).reduceOption
      { s with inputs := rest } := by
  induction rows with
  | nil => exact .nil _
  | cons w rows ih =>
    obtain ⟨hw, hrows⟩ := List.forall_mem_cons.1 h
    obtain ⟨hstep, hevent⟩ := hw (rows ++ rest)
    have hrun := RunsTo.cons hstep (ih hrows)
    rw [hevent] at hrun
    cases e <;> exact hrun

/-! ### Reset (R180) -/

/-- A reset edge, from any state and whatever the other inputs. -/
theorem step_reset {s : State} {r : Pins} {rest : List Pins} (hin : s.inputs = r :: rest) (hr : r.rst = true) :
    step s = .next { State.reset with inputs := rest, freeDraws := s.freeDraws } ∧ s.event = some .reset := by
  obtain rfl : s.pins = r := State.pins_of_inputs_cons hin
  refine ⟨?_, State.event_of_rst hr⟩
  rw [step_of_rst hr, State.tick_of_inputs_cons (s := s.resetEdge) hin]
  rfl

/-- Settles O24: the first edge resets, and in the state after reset every further reset edge stays. -/
theorem resetForAnyNumberOfEdges : Obligations.ResetForAnyNumberOfEdges := by
  intro s rows rest hne hin hrst
  cases rows with
  | nil => exact absurd rfl hne
  | cons r rows =>
    obtain ⟨hr, hrows⟩ := List.forall_mem_cons.1 hrst
    obtain ⟨hstep, hevent⟩ := step_reset hin hr
    have hstays : ∀ w ∈ rows, State.Stays { State.reset with freeDraws := s.freeDraws } (some .reset) w :=
      fun w hw _ => step_reset rfl (hrows w hw)
    have hrun := RunsTo.cons hstep (runsTo_of_stays rows rest hstays)
    refine ⟨hrun.edges_eq, hrun.events_eq.trans ?_⟩
    simp [hevent, List.reduceOption, List.replicate_succ]

/-! ### Holding a presented result (R185) -/

/-- HOLD (R145): an edge in DONE at which the host is not ready. -/
theorem step_hold {s : State} {w : Pins} {rest : List Pins} (hp : s.ph = 0b10000#5) (hin : s.inputs = w :: rest)
    (hr : w.rst = false) (ho : w.outReady = false) :
    step s = .next { s with inputs := rest } ∧ s.event = none := by
  obtain rfl : s.pins = w := State.pins_of_inputs_cons hin
  constructor
  · simp [step_done hr hp, ho, State.tick_of_inputs_cons hin]
  · simp [State.event, hr, hp, ho]

/-- Settles O46: in DONE every edge that holds the result back stays. -/
theorem heldResultStays : Obligations.HeldResultStays := by
  intro s rows rest hp hin hholds
  have hstays : ∀ w ∈ rows, s.Stays none w := by
    intro w hw _
    obtain ⟨hr, ho⟩ := hholds w hw
    exact step_hold hp rfl hr ho
  have hrun := runsTo_of_stays rows rest hstays
  rw [← hin, List.reduceOption_replicate_none] at hrun
  obtain ⟨hready, hvalid⟩ := State.outputs_of_done (State.ph_eq_done_iff.1 hp).1
  exact ⟨hrun.edges_eq, hvalid, hready, hrun.events_eq⟩

/-! ### The first offer after reset, and the next offer after a result (R182, R186, R189) -/

theorem runsTo_of_edges {n : Nat} {s t : State} (h : edges n s = .next t) : RunsTo n s (events n s) t := by
  induction n generalizing s with
  | zero => cases h; exact .nil _
  | succ n ih =>
    obtain ⟨u, hu⟩ := step_exists_next s
    rw [events_succ_of_step hu]
    exact .cons hu (ih (by rwa [edges_succ_of_step hu] at h))

/-- A run that ends in IDLE accepts what the host offers next. -/
theorem events_succ_of_offer {n : Nat} {s t : State} {q : Pins} {rest : List Pins} (hrun : edges n s = .next t)
    (hp : t.ph = 0b00000#5) (hin : t.inputs = q :: rest) (hr : q.rst = false) (hv : q.inValid = true) :
    events (n + 1) s = events n s ++ [.accepted q.inMsg q.inKey] := by
  obtain rfl : t.pins = q := State.pins_of_inputs_cons hin
  rw [((runsTo_of_edges hrun).snoc (step_accept hr hp hv)).events_eq, State.event_of_accept hr hp hv]
  rfl

/-- Settles O25: reset leads to IDLE, and waiting there is silent. -/
theorem firstOfferAfterResetIsAccepted : Obligations.FirstOfferAfterResetIsAccepted := by
  constructor
  · intro s hr
    exact ⟨_, step_of_rst hr, State.outputs_of_idle (by simp)⟩
  · intro waits rest p n hwaits hr hv
    have hidle : ∀ rows, State.ph { State.reset with inputs := rows, freeDraws := n } = 0b00000#5 :=
      fun _ => State.ph_eq_idle_iff.2 ⟨rfl, rfl⟩
    have hrun := runsTo_of_waits waits (rest := p :: rest) (hidle _) rfl hwaits
    rw [events_succ_of_offer hrun.edges_eq (hidle _) rfl hr hv, hrun.events_eq]
    rfl

/-- A host that always offers and is always ready: an input is accepted, its result is released as soon as it is
presented, and the next input is accepted at the edge after that. -/
theorem events_of_eager_host {s : State} {p r q : Pins} {busy rest : List Pins} {ct : Block} {err : Bool}
    (hp : s.ph = 0b00000#5) (hin : s.inputs = p :: (busy ++ r :: q :: rest))
    (hlen : busy.length = latency p.inMsg p.inKey)
    (heager : ∀ x ∈ p :: q :: (busy ++ [r]), x.rst = false ∧ x.inValid = true ∧ x.outReady = true)
    (hout : (encrypt p.inMsg p.inKey).onPorts = (ct, err)) :
    events (busy.length + 2) s = [.accepted p.inMsg p.inKey, .released ct err] ∧
    events (busy.length + 3) s = [.accepted p.inMsg p.inKey, .released ct err, .accepted q.inMsg q.inKey] := by
  obtain ⟨⟨hr, hv, -⟩, ⟨hqr, hqv, -⟩, hrows⟩ := by simpa only [List.forall_mem_cons] using heager
  obtain ⟨hbusy, hlast⟩ := List.forall_mem_append.1 hrows
  obtain ⟨hrr, -, hro⟩ := hlast r List.mem_cons_self
  obtain ⟨hevents, t, hrun, hph, -, -, htin⟩ := transactionDeliversEncrypt.1 s p r busy [] (q :: rest) hp hin hr hv hlen
    (fun x hx => (hbusy x hx).1) (List.forall_mem_nil _) hrr hro
  rw [List.length_nil, Nat.add_zero] at hevents hrun
  rw [hout] at hevents
  exact ⟨hevents, by rw [events_succ_of_offer hrun hph htin hqr hqv, hevents]; rfl⟩

/-- Settles O50: `events_of_eager_host` with the seven edges of LAT_OK between the transfers, and with the none of
LAT_ERR. -/
theorem backToBackTransactionTiming : Obligations.BackToBackTransactionTiming := by
  constructor
  · intro s p q rows rest hp hin hlen heager hfits
    rcases rows.eq_nil_or_concat' with rfl | ⟨busy, r, rfl⟩
    · cases hlen
    have hseven : busy.length = 7 := Nat.succ.inj (List.length_append.symm.trans hlen)
    have hout : encrypt p.inMsg p.inKey = .ok (cipher (msgBlock p.inMsg) (keyField p.inKey)) :=
      encrypt_eq_ok_iff.2 ⟨hfits, rfl⟩
    have hrun := events_of_eager_host hp (by simpa using hin) (hseven.trans (latency_of_fits hfits).symm) heager
      (congrArg Result.onPorts hout)
    rwa [hseven] at hrun
  · intro s p r q rest hp hin heager hb
    have hnone : latency p.inMsg p.inKey = 0 := if_pos hb
    exact events_of_eager_host (busy := []) hp hin hnone.symm
      (fun x hx => heager x (((List.Perm.swap r q []).cons p).mem_iff.1 hx))
      (congrArg Result.onPorts (encrypt_of_badlen hb))

end Sys2Proof.Machine
